-- ==== Sys2Proof/Word.lean ====
section
/-! DEFINITION. The engine's word (a signed 64-bit integer), the decimal digit, the addressing modes and the fault codes. -/

namespace Sys2Proof

/-- R11: every memory cell, immediate, operand value, the relative base and every I/O value is one signed 64-bit word.
Its value as the spec's mathematical integer is `BitVec.toInt`. -/
abbrev Word := BitVec 64

/-- R16: a decimal digit of an instruction word. -/
abbrev Digit := Fin 10

/-- R15: INT64_MIN = −2^63. -/
def int64Min : Int := -9223372036854775808

/-- R15: INT64_MAX = 2^63 − 1, also the highest word address (R12, R61). -/
def int64Max : Int := 9223372036854775807

/-- R15: the integers a word can hold. -/
abbrev InInt64 (x : Int) : Prop := int64Min ≤ x ∧ x ≤ int64Max

/-- The word that holds the integer `x` (its residue modulo 2^64, where `x` lies outside int64). -/
def wordOfInt (x : Int) : Word := BitVec.ofInt 64 x

/-- R102: the three addressing modes. -/
inductive Mode where
  | position
  | immediate
  | relative
deriving DecidableEq, Repr

/-- R300: the six fault codes of the engine, the ones `status = Faulted(code, fpc)` records. They are values of the state:
a fault of the engine is a next state, not a stop of the model. -/
inductive FaultCode where
  | invalidOpcode
  | invalidAddressingMode
  | invalidAddress
  | inputExhausted
  | arithmeticOverflow
  | capacityExceeded
deriving DecidableEq, Repr

end Sys2Proof
end

