-- ==== Sys2Proof/Config.lean ====
section
/-! DEFINITION. The four implementation parameters of R13 and the values this hardware has. -/

namespace Sys2Proof

/-- R13, D2: what an addition or a multiplication outside int64 does. -/
inductive OverflowMode where
  | trap
  | wrap
deriving DecidableEq, Repr

/-- R13: the named parameters. `none` stands for `unbounded`. -/
structure Config where
  /-- `OVERFLOW_MODE` (D2). -/
  overflow : OverflowMode
  /-- `MEM_CAPACITY` (D10). -/
  memCapacity : Option Nat
  /-- `OUT_CAPACITY` (D11). -/
  outCapacity : Option Nat
  /-- `STRICT_UNUSED_MODES` (D5). -/
  strictUnusedModes : Bool
deriving DecidableEq, Repr

/-- R13, column "this hardware". -/
def Config.hw : Config where
  overflow := .trap
  memCapacity := none
  outCapacity := none
  strictUnusedModes := true

end Sys2Proof
end

