-- ==== Sys2Proof/Syntax.lean ====
section
/-! DEFINITION. The instructions: one constructor per row of spec/opcode_table.json. -/

namespace Sys2Proof

/-- R105, R118: a decoded instruction is its opcode with its three mode digits. A digit of a parameter the opcode has is a
`Mode`; a digit of a parameter it does not have is kept as the raw digit, since R114 makes it a matter of configuration
which of those are legal (R116: they have no effect). The parameter words are no part of the decoded instruction: they are
memory words the step reads (R120). -/
inductive Instr where
  /-- `add a, b, dst` (opcode 1), R200 -/
  | add (m0 m1 m2 : Mode)
  /-- `mul a, b, dst` (opcode 2), R201 -/
  | mul (m0 m1 m2 : Mode)
  /-- `in dst` (opcode 3), R220 -/
  | inp (m0 : Mode) (d1 d2 : Digit)
  /-- `out src` (opcode 4), R230 -/
  | out (m0 : Mode) (d1 d2 : Digit)
  /-- `jt cond, target` (opcode 5), R240 -/
  | jt (m0 m1 : Mode) (d2 : Digit)
  /-- `jf cond, target` (opcode 6), R241 -/
  | jf (m0 m1 : Mode) (d2 : Digit)
  /-- `lt a, b, dst` (opcode 7), R260 -/
  | lt (m0 m1 m2 : Mode)
  /-- `eq a, b, dst` (opcode 8), R261 -/
  | eq (m0 m1 m2 : Mode)
  /-- `arb delta` (opcode 9), R280 -/
  | arb (m0 : Mode) (d1 d2 : Digit)
  /-- `hlt` (opcode 99), R290 -/
  | hlt (d0 d1 d2 : Digit)
deriving DecidableEq, Repr

end Sys2Proof
end

