-- ==== Sys2Proof/WellFormed.lean ====
section
/-! DEFINITION. Which terms of `Instr` are instructions of the machine: R106, R114 and R115 as checks on the term. -/

namespace Sys2Proof

/-- R115: a write parameter is not immediate. -/
def Mode.writable : Mode → Bool
  | .immediate => false
  | .position | .relative => true

/-- R114: the digit of a parameter the opcode does not have is checked only when `STRICT_UNUSED_MODES` is true. -/
def Config.unusedOk (cfg : Config) (d : Digit) : Bool :=
  !cfg.strictUnusedModes || d.val ≤ 2

/-- The legal instructions under a configuration. -/
def Instr.wfIn (cfg : Config) : Instr → Bool
  | .add _ _ m2 | .mul _ _ m2 | .lt _ _ m2 | .eq _ _ m2 => m2.writable
  | .inp m0 d1 d2 => m0.writable && cfg.unusedOk d1 && cfg.unusedOk d2
  | .out _ d1 d2 | .arb _ d1 d2 => cfg.unusedOk d1 && cfg.unusedOk d2
  | .jt _ _ d2 | .jf _ _ d2 => cfg.unusedOk d2
  | .hlt d0 d1 d2 => cfg.unusedOk d0 && cfg.unusedOk d1 && cfg.unusedOk d2

/-- R106: the legal instructions of this hardware. -/
def Instr.wf (i : Instr) : Bool := i.wfIn Config.hw

end Sys2Proof
end

