-- ==== Sys2Proof/Decode.lean ====
section
/-! DEFINITION. Decoding an instruction word (R100 to R118) and encoding an instruction (R142). -/

namespace Sys2Proof

/-- R16: `digit(w, k) = (w / 10^k) mod 10`. -/
def digit (w k : Nat) : Digit := ⟨w / 10 ^ k % 10, Nat.mod_lt _ (by decide)⟩

/-- R16: `low2(w) = w mod 100`. -/
def low2 (w : Nat) : Nat := w % 100

/-- R102: the mode a digit names; digits 3 to 9 name none. -/
def modeOfDigit (d : Digit) : Option Mode :=
  match d.val with
  | 0 => some .position
  | 1 => some .immediate
  | 2 => some .relative
  | _ => none

/-- R102: the digit of a mode. -/
def digitOfMode : Mode → Digit
  | .position => 0
  | .immediate => 1
  | .relative => 2

/-- R103: the format F3RRW, with the checks of R114 (all three digits name a mode) and R115 (parameter 2 is not immediate). -/
def decodeRRW (mk : Mode → Mode → Mode → Instr) (d0 d1 d2 : Digit) : Except FaultCode Instr :=
  match modeOfDigit d0, modeOfDigit d1, modeOfDigit d2 with
  | some m0, some m1, some m2 => if m2.writable then .ok (mk m0 m1 m2) else .error .invalidAddressingMode
  | _, _, _ => .error .invalidAddressingMode

/-- R103: the format F2RR. -/
def decodeRR (cfg : Config) (mk : Mode → Mode → Digit → Instr) (d0 d1 d2 : Digit) : Except FaultCode Instr :=
  match modeOfDigit d0, modeOfDigit d1 with
  | some m0, some m1 => if cfg.unusedOk d2 then .ok (mk m0 m1 d2) else .error .invalidAddressingMode
  | _, _ => .error .invalidAddressingMode

/-- R103: the format F1R. -/
def decodeR (cfg : Config) (mk : Mode → Digit → Digit → Instr) (d0 d1 d2 : Digit) : Except FaultCode Instr :=
  match modeOfDigit d0 with
  | some m0 =>
    if cfg.unusedOk d1 && cfg.unusedOk d2 then .ok (mk m0 d1 d2) else .error .invalidAddressingMode
  | none => .error .invalidAddressingMode

/-- R103: the format F1W, with the check of R115 on parameter 0. -/
def decodeW (cfg : Config) (mk : Mode → Digit → Digit → Instr) (d0 d1 d2 : Digit) : Except FaultCode Instr :=
  match modeOfDigit d0 with
  | some m0 =>
    if m0.writable && cfg.unusedOk d1 && cfg.unusedOk d2 then .ok (mk m0 d1 d2)
    else .error .invalidAddressingMode
  | none => .error .invalidAddressingMode

/-- R103: the format F0. -/
def decodeNone (cfg : Config) (mk : Digit → Digit → Digit → Instr) (d0 d1 d2 : Digit) : Except FaultCode Instr :=
  if cfg.unusedOk d0 && cfg.unusedOk d1 && cfg.unusedOk d2 then .ok (mk d0 d1 d2)
  else .error .invalidAddressingMode

/-- R105: the opcode map, as the decoder of the mode digits that each opcode selects; `none` for the low-two-digit values
that are no opcode (R112). -/
def decodeOpcode (cfg : Config) (op : Nat) : Option (Digit → Digit → Digit → Except FaultCode Instr) :=
  match op with
  | 1 => some (decodeRRW .add)
  | 2 => some (decodeRRW .mul)
  | 3 => some (decodeW cfg .inp)
  | 4 => some (decodeR cfg .out)
  | 5 => some (decodeRR cfg .jt)
  | 6 => some (decodeRR cfg .jf)
  | 7 => some (decodeRRW .lt)
  | 8 => some (decodeRRW .eq)
  | 9 => some (decodeR cfg .arb)
  | 99 => some (decodeNone cfg .hlt)
  | _ => none

/-- R118, R130 steps 2 to 6: decoding is total on int64, and answers an instruction or the fault code that decode raises.
The order of the checks is the order of R130. -/
def decodeIn (cfg : Config) (w : Word) : Except FaultCode Instr :=
  if w.toInt < 0 then .error .invalidOpcode
  else
    match decodeOpcode cfg (low2 w.toNat) with
    | none => .error .invalidOpcode
    | some build =>
      if 100000 ≤ w.toNat then .error .invalidAddressingMode
      else build (digit w.toNat 2) (digit w.toNat 3) (digit w.toNat 4)

/-- This hardware's decoder. -/
def decode (w : Word) : Except FaultCode Instr := decodeIn Config.hw w

/-- R105: the opcode of each instruction. -/
def Instr.opcode : Instr → Nat
  | .add .. => 1
  | .mul .. => 2
  | .inp .. => 3
  | .out .. => 4
  | .jt .. => 5
  | .jf .. => 6
  | .lt .. => 7
  | .eq .. => 8
  | .arb .. => 9
  | .hlt .. => 99

/-- R118: the three mode digits m[0], m[1], m[2] of an instruction. -/
def Instr.digits : Instr → Digit × Digit × Digit
  | .add m0 m1 m2 | .mul m0 m1 m2 | .lt m0 m1 m2 | .eq m0 m1 m2 => (digitOfMode m0, digitOfMode m1, digitOfMode m2)
  | .jt m0 m1 d2 | .jf m0 m1 d2 => (digitOfMode m0, digitOfMode m1, d2)
  | .inp m0 d1 d2 | .out m0 d1 d2 | .arb m0 d1 d2 => (digitOfMode m0, d1, d2)
  | .hlt d0 d1 d2 => (d0, d1, d2)

/-- R101, R142: `w = opcode + 100·m[0] + 1000·m[1] + 10000·m[2]`. -/
def encode (i : Instr) : Word :=
  BitVec.ofNat 64
    (i.opcode + 100 * i.digits.1.val + 1000 * i.digits.2.1.val + 10000 * i.digits.2.2.val)

/-- The decoder on an instruction given as one number, its first word lowest. The instruction word is 64 bits, so the
parameter words that lie above it are no part of what is decoded (R118); bits above `nbits` are 0. -/
def decodeTableWord (nbits w : Nat) : Option Instr :=
  match decode (BitVec.ofNat 64 (w % 2 ^ nbits)) with
  | .ok i => some i
  | .error _ => none

end Sys2Proof
end

