-- ==== Sys2Proof/Machine/State.lean ====
section
/-! DEFINITION. The state of one instance (10_state.md), the reasons the model can stop, and the state after reset. -/

namespace Sys2Proof.Machine

/-- R39, R61: memory, as the pairs (word address, word) of the cells that do not hold 0. The addressable unit of this
machine is the 64-bit word (R69: there are no bytes), so a cell holds a word. Canonical form (`Memory.wf`): addresses
strictly rising, no cell listed that holds 0, which is what an unlisted address reads as (R64, R67). -/
abbrev Memory := List (Nat × Word)

/-- R43: an item of the output FIFO. -/
inductive OutItem where
  | value (v : Word)
  | haltSentinel
deriving DecidableEq, Repr

/-- R36: the run-state register. -/
inductive Status where
  | running
  | halted
  /-- `fpc` is the address of the instruction that faulted (R303). -/
  | faulted (code : FaultCode) (fpc : Word)
deriving DecidableEq, Repr

/-- 10_state.md: the tuple `(mem, mem_len, pc, rb, status, in_q, in_closed, out_q, out_gone)`. -/
structure State where
  /-- R39 -/
  mem : Memory
  /-- R40: the current length of the memory sequence, a natural number up to 2^63, one more than int64 holds (log entries 16 and 20) -/
  memLen : Nat
  /-- R31: the instruction pointer -/
  pc : Word
  /-- R34: the relative base, signed -/
  rb : Word
  /-- R36: the run-state register -/
  status : Status
  /-- R41: the input FIFO, head first -/
  inQ : List Word
  /-- R42 -/
  inClosed : Bool
  /-- R43: the output FIFO, head first -/
  outQ : List OutItem
  /-- R44 -/
  outGone : Bool
deriving DecidableEq, Repr

/-- Why the MODEL stops. The engine's own faults (R300) are not here: their entry (R312) is a next state, with
`status = Faulted(code, fpc)`. No step and no instruction raises a constructor of this type. -/
inductive Fault where
  /-- Raised by `Driver.send` alone, when the driver sends after it has closed its side: R331 allows a Send only while
  `in_closed` is false. Safe: the model stops where the spec says the driver does not act. -/
  | sendAfterClose
deriving DecidableEq, Repr

/-- Why the model has no meaning for an instruction. -/
inductive Refusal where
  /-- Raised by an arm of `exec` that has no meaning yet; there is none. Safe: the model stops. -/
  | notModelled (mnemonic : String)
deriving DecidableEq, Repr

/-- R49 with the empty program (R402: L = 0 is allowed), the input empty and open (R403): the program is an argument of
construction, not of the machine (log entry 2; `construct` in Machine/Boot.lean takes it). -/
def State.reset : State where
  mem := []
  memLen := 0
  pc := 0
  rb := 0
  status := .running
  inQ := []
  inClosed := false
  outQ := []
  outGone := false

end Sys2Proof.Machine
end

