-- ==== Sys2Proof/Machine/Ops.lean ====
section
/-! DEFINITION. The named operations over memory, the registers, the endpoints and the run state: MemRead and MemWrite
(R64, R65), the FIFO primitives (R20), entering a fault (R312), fetch and the beginning of a step (R130). -/

namespace Sys2Proof.Machine

/-! ### Memory cells -/

/-- The word at an address; an unlisted cell holds 0 (R39, R67). -/
def Memory.read : Memory → Nat → Word
  | [], _ => 0#64
  | (b, v) :: rest, a => if a = b then v else Memory.read rest a

/-- The memory with the word at `a` replaced; a cell that comes to hold 0 is not listed. -/
def Memory.write : Memory → Nat → Word → Memory
  | [], a, v => if v = 0#64 then [] else [(a, v)]
  | (b, w) :: rest, a, v =>
    if a < b then (if v = 0#64 then (b, w) :: rest else (a, v) :: (b, w) :: rest)
    else if a = b then (if v = 0#64 then rest else (a, v) :: rest)
    else (b, w) :: Memory.write rest a v

/-- The canonical form: addresses strictly rising, no listed cell holds 0. -/
def Memory.wf : Memory → Bool
  | [] => true
  | (a, v) :: rest => v != 0#64 && rest.all (fun c => a < c.1) && Memory.wf rest

/-- R402: the words of a program placed from address `a` on. -/
def Memory.ofWords : Nat → List Word → Memory
  | _, [] => []
  | a, w :: ws => if w = 0#64 then Memory.ofWords (a + 1) ws else (a, w) :: Memory.ofWords (a + 1) ws

/-! ### Updates of one piece of state -/

def State.setMem (s : State) (m : Memory) : State := { s with mem := m }
def State.setPc (s : State) (a : Word) : State := { s with pc := a }
def State.setRb (s : State) (v : Word) : State := { s with rb := v }
def State.setStatus (s : State) (x : Status) : State := { s with status := x }
def State.setInQ (s : State) (q : List Word) : State := { s with inQ := q }
def State.setOutQ (s : State) (q : List OutItem) : State := { s with outQ := q }

/-- R64, R66: growth, `if a ≥ mem_len: mem_len <- a + 1`. At the highest address 2^63 − 1 this is 2^63, which R15's int64
does not hold; that `mem_len` takes that value, as a natural number, and that the access is no fault is the model's choice
(log entry 16). -/
def State.touch (s : State) (a : Nat) : State :=
  { s with memLen := if s.memLen ≤ a then a + 1 else s.memLen }

/-- R32: `pc` advanced by the width of the executed instruction. -/
def State.advance (s : State) (width : Nat) : State := s.setPc (s.pc + BitVec.ofNat 64 width)

/-! ### Memory access -/

/-- R62, R63: the checks of a word address, `InvalidAddress` before `CapacityExceeded` (R306). -/
def checkAddress (cfg : Config) (a : Word) : Except FaultCode Unit :=
  if a.toInt < 0 then .error .invalidAddress
  else
    match cfg.memCapacity with
    | none => .ok ()
    | some n => if n ≤ a.toNat then .error .capacityExceeded else .ok ()

/-- R64: `MemRead(a, 1)`. -/
def memRead (cfg : Config) (a : Word) (s : State) : Except FaultCode (Word × State) :=
  match checkAddress cfg a with
  | .error c => .error c
  | .ok () => .ok (s.mem.read a.toNat, s.touch a.toNat)

/-- R65: `MemWrite(a, 1, v)`. -/
def memWrite (cfg : Config) (a v : Word) (s : State) : Except FaultCode State :=
  match checkAddress cfg a with
  | .error c => .error c
  | .ok () => .ok ((s.touch a.toNat).setMem (s.mem.write a.toNat v))

/-! ### Endpoints -/

/-- R20, R230, R290: an item offered to the output endpoint. A gone consumer discards it (R232); a full bounded buffer
holds the step (R231), answered as `none`; otherwise it is appended. -/
def offerOutput (cfg : Config) (item : OutItem) (s : State) : Option State :=
  if s.outGone then some s
  else if cfg.outCapacity = some s.outQ.length then none
  else some (s.setOutQ (s.outQ ++ [item]))

/-! ### Faults and the outcome of a step -/

/-- R300: the number of each fault code. -/
def faultNumber : FaultCode → Nat
  | .invalidOpcode => 1
  | .invalidAddressingMode => 2
  | .invalidAddress => 3
  | .inputExhausted => 4
  | .arithmeticOverflow => 5
  | .capacityExceeded => 6

/-- R310, R312: fault entry. `status <- Faulted(code, pc)`, and nothing else changes; the closing of both endpoints is read
off `status` (R333). There is no handler, no saved register beyond `fpc`, and no return (R313). -/
def enterFault (c : FaultCode) (s : State) : State := s.setStatus (.faulted c s.pc)

/-- R21, R131: what becomes of the state `s` in which a step began. A fault commits nothing but the fault bookkeeping, a
hold (`none`) commits nothing at all, and otherwise all effects of the step appear together. -/
def settle (s : State) (effect : Except FaultCode (Option State)) : Host.Outcome State Fault Refusal :=
  match effect with
  | .error c => .next (enterFault c s)
  | .ok none => .next s
  | .ok (some t) => .next t

/-! ### The beginning of a step -/

/-- R110 and R130 steps 1 to 6: the instruction word at `pc` is read and decoded. -/
def fetchDecode (cfg : Config) (s : State) : Except FaultCode Instr :=
  match memRead cfg s.pc s with
  | .error c => .error c
  | .ok (w, _) => decodeIn cfg w

/-- R130 steps 1 and 7 for an instruction of `n` parameters: the read of the instruction word, whose growth of `mem_len` is
committed with the rest of the step (R131), and the address bound of R119. -/
def openStep (cfg : Config) (n : Nat) (s : State) : Except FaultCode State :=
  match memRead cfg s.pc s with
  | .error c => .error c
  | .ok (_, s0) =>
    if 1 ≤ n ∧ int64Max < s.pc.toInt + 1 + n then .error .invalidAddress else .ok s0

/-- One word placed in memory from outside, where `a` is a word address (R61); past 2^63 − 1 there is none, and nothing is
placed (log entry 2). -/
def placeWord (a : Nat) (v : Word) (s : State) : State :=
  if a < 2 ^ 63 then (s.touch a).setMem (s.mem.write a v) else s

/-- The words of an instruction, given as one number with the first word lowest, placed from address `a` on; `n` words are
placed. -/
def storeWords : Nat → Nat → Nat → State → State
  | 0, _, _, s => s
  | n + 1, a, w, s => storeWords n (a + 1) (w / 2 ^ 64) (placeWord a (BitVec.ofNat 64 w) s)

end Sys2Proof.Machine
end

