-- ==== Sys2Proof/Machine/Flags.lean ====
section
/-! DEFINITION. The ALU: overflow, the results of the comparisons and the conditions of the jumps. The engine has no flags,
condition codes or predicate registers (R38): overflow is a fault or wraps, a comparison's result is a word written to
memory, and a jump tests an operand. -/

namespace Sys2Proof.Machine

/-- R17: `wrap64(x) = ((x + 2^63) mod 2^64) − 2^63`. -/
def wrap64 (x : Int) : Int := (x + 9223372036854775808) % 18446744073709551616 - 9223372036854775808

/-- R17: `alu(x)`, where every sum and product of the ISA goes through (R206). -/
def alu (cfg : Config) (x : Int) : Except FaultCode Word :=
  if int64Min ≤ x ∧ x ≤ int64Max then .ok (wordOfInt x)
  else
    match cfg.overflow with
    | .trap => .error .arithmeticOverflow
    | .wrap => .ok (wordOfInt (wrap64 x))

/-- R200: the result of Add. -/
def addResult (cfg : Config) (a b : Word) : Except FaultCode Word := alu cfg (a.toInt + b.toInt)

/-- R201: the result of Multiply, the exact product passed through `alu`. -/
def mulResult (cfg : Config) (a b : Word) : Except FaultCode Word := alu cfg (a.toInt * b.toInt)

/-- R262: the words 1 and 0 that the comparisons write. -/
def truthWord (p : Bool) : Word := if p then 1#64 else 0#64

/-- R260: the result of LessThan, a signed comparison. -/
def ltResult (a b : Word) : Except FaultCode Word := .ok (truthWord (decide (a.toInt < b.toInt)))

/-- R261: the result of Equals. -/
def eqResult (a b : Word) : Except FaultCode Word := .ok (truthWord (decide (a = b)))

/-- R240: JumpIfTrue takes any nonzero condition. -/
def jumpsIfTrue (c : Word) : Bool := decide (c ≠ 0#64)

/-- R241: JumpIfFalse takes the condition 0 only. -/
def jumpsIfFalse (c : Word) : Bool := decide (c = 0#64)

end Sys2Proof.Machine
end

