-- ==== Sys2Proof/Machine/Operands.lean ====
section
/-! DEFINITION. Operand resolution (R120 to R126) and the shared shapes of a step: three operands with a result (format
F3RRW) and the conditional jump (format F2RR). Each resolution takes the state as the earlier reads of the step left it
(grown, R66) and answers the state as its own reads leave it. -/

namespace Sys2Proof.Machine

/-- R120: the parameter word `P[k] = MemRead(pc + 1 + k, 1)`. -/
def paramWord (cfg : Config) (k : Nat) (s : State) : Except FaultCode (Word × State) :=
  memRead cfg (s.pc + BitVec.ofNat 64 (1 + k)) s

/-- R122, R124: the relative address `alu(rb + P)`. -/
def relativeAddress (cfg : Config) (p : Word) (s : State) : Except FaultCode Word :=
  alu cfg (s.rb.toInt + p.toInt)

/-- R121, R122, R123: `Value(m, P)`. -/
def operandValue (cfg : Config) (m : Mode) (p : Word) (s : State) : Except FaultCode (Word × State) :=
  match m with
  | .position => memRead cfg p s
  | .immediate => .ok (p, s)
  | .relative =>
    match relativeAddress cfg p s with
    | .error c => .error c
    | .ok a => memRead cfg a s

/-- R124: `Target(m, P)`, checked when it is resolved. Decode lets no immediate write parameter through (R115); on such a
term the fault is the one decode raises. -/
def operandTarget (cfg : Config) (m : Mode) (p : Word) (s : State) : Except FaultCode Word :=
  let target : Except FaultCode Word :=
    match m with
    | .position => .ok p
    | .immediate => .error .invalidAddressingMode
    | .relative => relativeAddress cfg p s
  match target with
  | .error c => .error c
  | .ok t =>
    match checkAddress cfg t with
    | .error c => .error c
    | .ok () => .ok t

/-- R120: read-parameter `k` in mode `m`, resolved in full: `V[k]`. -/
def readOperand (cfg : Config) (k : Nat) (m : Mode) (s : State) : Except FaultCode (Word × State) :=
  match paramWord cfg k s with
  | .error c => .error c
  | .ok (p, s1) => operandValue cfg m p s1

/-- R120: write-parameter `k` in mode `m`, resolved in full: `A[k]`. -/
def writeOperand (cfg : Config) (k : Nat) (m : Mode) (s : State) : Except FaultCode (Word × State) :=
  match paramWord cfg k s with
  | .error c => .error c
  | .ok (p, s1) =>
    match operandTarget cfg m p s1 with
    | .error c => .error c
    | .ok t => .ok (t, s1)

/-- Format F3RRW (R103): the three parameters resolved in order, the result computed from the two sources and written to
the target after every read (R132), `pc` advanced by 4. -/
def threeOperand (cfg : Config) (result : Word → Word → Except FaultCode Word) (m0 m1 m2 : Mode) (s : State) :
    Except FaultCode (Option State) := do
  let s0 ← openStep cfg 3 s
  let (a, s1) ← readOperand cfg 0 m0 s0
  let (b, s2) ← readOperand cfg 1 m1 s1
  let (t, s3) ← writeOperand cfg 2 m2 s2
  let r ← result a b
  let s4 ← memWrite cfg t r s3
  return some (s4.advance 4)

/-- Format F2RR (R103): condition and target are both resolved, taken or not (R125). A taken jump to a negative target
faults at the jump (R242); an untaken one advances by 3. -/
def conditionalJump (cfg : Config) (taken : Word → Bool) (m0 m1 : Mode) (s : State) :
    Except FaultCode (Option State) := do
  let s0 ← openStep cfg 2 s
  let (c, s1) ← readOperand cfg 0 m0 s0
  let (t, s2) ← readOperand cfg 1 m1 s1
  if taken c then
    if t.toInt < 0 then throw .invalidAddress else return some (s2.setPc t)
  else
    return some (s2.advance 3)

end Sys2Proof.Machine
end

