-- ==== Sys2Proof/Machine/Arithmetic.lean ====
section
/-! DEFINITION. Add and Multiply (40_arithmetic.md). -/

namespace Sys2Proof.Machine

/-- R200, for any configuration. -/
def addEffect (cfg : Config) (m0 m1 m2 : Mode) (s : State) : Except FaultCode (Option State) :=
  threeOperand cfg (addResult cfg) m0 m1 m2 s

/-- R201, for any configuration. -/
def mulEffect (cfg : Config) (m0 m1 m2 : Mode) (s : State) : Except FaultCode (Option State) :=
  threeOperand cfg (mulResult cfg) m0 m1 m2 s

/-- R200: `add a, b, dst`. -/
def execAdd (m0 m1 m2 : Mode) (s : State) : Host.Outcome State Fault Refusal :=
  settle s (addEffect Config.hw m0 m1 m2 s)

/-- R201: `mul a, b, dst`. -/
def execMul (m0 m1 m2 : Mode) (s : State) : Host.Outcome State Fault Refusal :=
  settle s (mulEffect Config.hw m0 m1 m2 s)

end Sys2Proof.Machine
end

