-- ==== Sys2Proof/Machine/Compare.lean ====
section
/-! DEFINITION. LessThan and Equals (43_compare.md). -/

namespace Sys2Proof.Machine

/-- R260, for any configuration. -/
def ltEffect (cfg : Config) (m0 m1 m2 : Mode) (s : State) : Except FaultCode (Option State) :=
  threeOperand cfg ltResult m0 m1 m2 s

/-- R261, for any configuration. -/
def eqEffect (cfg : Config) (m0 m1 m2 : Mode) (s : State) : Except FaultCode (Option State) :=
  threeOperand cfg eqResult m0 m1 m2 s

/-- R260: `lt a, b, dst`. -/
def execLt (m0 m1 m2 : Mode) (s : State) : Host.Outcome State Fault Refusal :=
  settle s (ltEffect Config.hw m0 m1 m2 s)

/-- R261: `eq a, b, dst`. -/
def execEq (m0 m1 m2 : Mode) (s : State) : Host.Outcome State Fault Refusal :=
  settle s (eqEffect Config.hw m0 m1 m2 s)

end Sys2Proof.Machine
end

