-- ==== Sys2Proof/Machine/Halt.lean ====
section
/-! DEFINITION. Halt (45_halt.md). -/

namespace Sys2Proof.Machine

/-- R290, for any configuration: the halt sentinel is offered to the output, `status <- Halted`, `pc` stays (D9). -/
def hltEffect (cfg : Config) (s : State) : Except FaultCode (Option State) := do
  let s0 ← openStep cfg 0 s
  return (offerOutput cfg .haltSentinel s0).map (fun s1 => s1.setStatus .halted)

/-- R290: `hlt`. -/
def execHlt (s : State) : Host.Outcome State Fault Refusal := settle s (hltEffect Config.hw s)

end Sys2Proof.Machine
end

