-- ==== Sys2Proof/Machine/InOut.lean ====
section
/-! DEFINITION. Input and Output (41_io.md). -/

namespace Sys2Proof.Machine

/-- R220, R221, for any configuration: the target is resolved and checked before the queue is looked at (D17). An empty
queue faults when the producer has closed it, and holds while it is open. -/
def inEffect (cfg : Config) (m0 : Mode) (s : State) : Except FaultCode (Option State) := do
  let s0 ← openStep cfg 1 s
  let (t, s1) ← writeOperand cfg 0 m0 s0
  match s1.inQ with
  | v :: rest =>
    let s2 ← memWrite cfg t v (s1.setInQ rest)
    return some (s2.advance 2)
  | [] => if s1.inClosed then throw .inputExhausted else return none

/-- R230, R231, R232, for any configuration. -/
def outEffect (cfg : Config) (m0 : Mode) (s : State) : Except FaultCode (Option State) := do
  let s0 ← openStep cfg 1 s
  let (v, s1) ← readOperand cfg 0 m0 s0
  return (offerOutput cfg (.value v) s1).map (fun s2 => s2.advance 2)

/-- R220: `in dst`. The digits of the parameters it does not have have no effect (R116). -/
def execIn (m0 : Mode) (s : State) : Host.Outcome State Fault Refusal :=
  settle s (inEffect Config.hw m0 s)

/-- R230: `out src`. -/
def execOut (m0 : Mode) (s : State) : Host.Outcome State Fault Refusal :=
  settle s (outEffect Config.hw m0 s)

end Sys2Proof.Machine
end

