-- ==== Sys2Proof/Machine/Jump.lean ====
section
/-! DEFINITION. JumpIfTrue and JumpIfFalse (42_jumps.md). -/

namespace Sys2Proof.Machine

/-- R240, for any configuration. -/
def jtEffect (cfg : Config) (m0 m1 : Mode) (s : State) : Except FaultCode (Option State) :=
  conditionalJump cfg jumpsIfTrue m0 m1 s

/-- R241, for any configuration. -/
def jfEffect (cfg : Config) (m0 m1 : Mode) (s : State) : Except FaultCode (Option State) :=
  conditionalJump cfg jumpsIfFalse m0 m1 s

/-- R240: `jt cond, target`. -/
def execJt (m0 m1 : Mode) (s : State) : Host.Outcome State Fault Refusal :=
  settle s (jtEffect Config.hw m0 m1 s)

/-- R241: `jf cond, target`. -/
def execJf (m0 m1 : Mode) (s : State) : Host.Outcome State Fault Refusal :=
  settle s (jfEffect Config.hw m0 m1 s)

end Sys2Proof.Machine
end

