-- ==== Sys2Proof/Machine/RelativeBase.lean ====
section
/-! DEFINITION. AdjustRelativeBase (44_relative_base.md). -/

namespace Sys2Proof.Machine

/-- R280, for any configuration: a relative operand is read with the old `rb`; a negative new `rb` is no fault (R281). -/
def arbEffect (cfg : Config) (m0 : Mode) (s : State) : Except FaultCode (Option State) := do
  let s0 ← openStep cfg 1 s
  let (v, s1) ← readOperand cfg 0 m0 s0
  let r ← alu cfg (s1.rb.toInt + v.toInt)
  return some ((s1.setRb r).advance 2)

/-- R280: `arb delta`. -/
def execArb (m0 : Mode) (s : State) : Host.Outcome State Fault Refusal :=
  settle s (arbEffect Config.hw m0 s)

end Sys2Proof.Machine
end

