-- ==== Sys2Proof/Machine/Step.lean ====
section
/-! DEFINITION. One step of an instance (R130), and the placing of an instruction where the next step fetches. -/

namespace Sys2Proof.Machine

/-- R130 for a Running instance: fetch and decode, then the instruction; a fault of fetch or decode is taken. R37: a Halted
or Faulted instance changes no more. A hold (R21) is a step that answers the state it began in. -/
def step (s : State) : Host.Outcome State Fault Refusal :=
  match s.status with
  | .running =>
    match fetchDecode Config.hw s with
    | .error c => .next (enterFault c s)
    | .ok i => exec i s
  | .halted => .next s
  | .faulted _ _ => .next s

/-- The instruction whose words are `w`, first word lowest, stored at `pc`; the longest instruction has four words (R103),
and the bits above `nbits` are 0. It stands for the load of a program (R402; log entry 2). -/
def State.withFetchWord (s : State) (nbits w : Nat) : State :=
  storeWords 4 s.pc.toNat (w % 2 ^ nbits) s

end Sys2Proof.Machine
end

