-- ==== Sys2Proof/Machine/Boot.lean ====
section
/-! DEFINITION. Construction of an instance, which is its reset (R400 to R405). -/

namespace Sys2Proof.Machine

/-- R400, R402, R49: `new(program)`. The program is placed from address 0 on; the input is empty and open (R403).
R13 sets no upper bound on the program's length, and R12 has no address past 2^63 − 1: for a program longer than 2^63 words
the spec leaves open what construction gives. That it then follows R402 and R49 to the letter, with word `a` of the program
kept at the natural number `a`, where no access reaches it, and `mem_len` = L, is the model's choice (log entry 20). -/
def construct (program : List Word) : State :=
  { State.reset with mem := Memory.ofWords 0 program, memLen := program.length }

/-- R403, R336 steps 1 and 2: an instance constructed for `run_with(inputs)`, its inputs queued in order and its input
closed. -/
def constructWith (program inputs : List Word) : State :=
  { construct program with inQ := inputs, inClosed := true }

/-- R13: the values the parameters may have for a program of `len` words: `MEM_CAPACITY` at least the program's length,
`OUT_CAPACITY` at least 1. -/
def legalParameters (cfg : Config) (len : Nat) : Bool :=
  (match cfg.memCapacity with
    | none => true
    | some n => decide (len ≤ n)) &&
  (match cfg.outCapacity with
    | none => true
    | some n => decide (1 ≤ n))

end Sys2Proof.Machine
end

