-- ==== Sys2Proof/Machine/Variant.lean ====
section
/-! DEFINITION. The engine under any values of the parameters of R13, and the hold. `step` is this engine at `Config.hw`. -/

namespace Sys2Proof.Machine

/-- The effect of each instruction under a configuration: `none` is a hold. -/
def instrEffect (cfg : Config) (i : Instr) (s : State) : Except FaultCode (Option State) :=
  match i with
  | .add m0 m1 m2 => addEffect cfg m0 m1 m2 s
  | .mul m0 m1 m2 => mulEffect cfg m0 m1 m2 s
  | .inp m0 _ _ => inEffect cfg m0 s
  | .out m0 _ _ => outEffect cfg m0 s
  | .jt m0 m1 _ => jtEffect cfg m0 m1 s
  | .jf m0 m1 _ => jfEffect cfg m0 m1 s
  | .lt m0 m1 m2 => ltEffect cfg m0 m1 m2 s
  | .eq m0 m1 m2 => eqEffect cfg m0 m1 m2 s
  | .arb m0 _ _ => arbEffect cfg m0 s
  | .hlt _ _ _ => hltEffect cfg s

/-- R130: the effect of one step of a Running instance. -/
def stepEffect (cfg : Config) (s : State) : Except FaultCode (Option State) :=
  match fetchDecode cfg s with
  | .error c => .error c
  | .ok i => instrEffect cfg i s

/-- One step under a configuration. -/
def stepIn (cfg : Config) (s : State) : Host.Outcome State Fault Refusal :=
  match s.status with
  | .running => settle s (stepEffect cfg s)
  | .halted => .next s
  | .faulted _ _ => .next s

/-- R21, R36, R221, R231: the instance is Running and its step is not enabled. -/
def heldIn (cfg : Config) (s : State) : Bool :=
  decide (s.status = .running) &&
    match stepEffect cfg s with
    | .ok none => true
    | .ok (some _) => false
    | .error _ => false

/-- The hold of this hardware: the input wait (R221). -/
def held (s : State) : Bool := heldIn Config.hw s

end Sys2Proof.Machine
end

