-- ==== Sys2Proof/Machine/Driver.lean ====
section
/-! DEFINITION. The driver's side of the two endpoints (R330 to R339): Send, Close, Receive and Disconnect, each atomic
with respect to steps, and the Runner's use of them (R336, R337). -/

namespace Sys2Proof.Machine

/-- R36, R37, R350: the run of the instance has ended. -/
def Status.ended : Status → Bool
  | .running => false
  | .halted => true
  | .faulted _ _ => true

/-- R331: `Send(v)` appends to the tail of `in_q`; it is allowed only while `in_closed` is false. An instance that has
ended accepts it and never reads the value (D26). -/
def Driver.send (v : Word) (s : State) : Host.Outcome State Fault Refusal :=
  if s.inClosed then .fault .sendAfterClose else .next (s.setInQ (s.inQ ++ [v]))

/-- R332: `Close()` sets `in_closed`, and never reverses it. -/
def Driver.close (s : State) : State := { s with inClosed := true }

/-- R334: `Disconnect()` sets `out_gone` and discards the items still in `out_q`. -/
def Driver.disconnect (s : State) : State := { s with outGone := true, outQ := [] }

/-- R333: what `Receive()` gives the driver. -/
inductive Received where
  /-- the head item, and the instance without it -/
  | item (x : OutItem) (s : State)
  /-- the instance has ended and nothing is left -/
  | disconnected
  /-- the driver waits; the instance is unchanged -/
  | waits
deriving DecidableEq, Repr

/-- R333: `Receive()`. The producer's side of the output is closed exactly when the instance has ended (R291, R312). -/
def Driver.receive (s : State) : Received :=
  match s.outQ with
  | x :: rest => .item x (s.setOutQ rest)
  | [] => if s.status.ended then .disconnected else .waits

/-- R337: `run()`, until the instance holds or ends; `none` where `fuel` steps do not reach that. -/
def run (cfg : Config) : Nat → State → Option State
  | 0, s => if s.status.ended || heldIn cfg s then some s else none
  | fuel + 1, s =>
    if s.status.ended || heldIn cfg s then some s
    else
      match stepIn cfg s with
      | .next t => run cfg fuel t
      | .fault _ => none
      | .refused _ => none

/-- R336 step 4: Receive until Disconnected, keeping the values and leaving out the halt sentinel; at most `n` items are
received. -/
def drain : Nat → State → List Word
  | 0, _ => []
  | n + 1, s =>
    match Driver.receive s with
    | .item (.value v) t => v :: drain n t
    | .item .haltSentinel t => drain n t
    | .disconnected => []
    | .waits => []

/-- R336: `run_with(inputs)`; a fault of the instance is the result (R313). `none` where the run does not end within
`fuel` steps. -/
def runWith (cfg : Config) (fuel : Nat) (program inputs : List Word) : Option (Except FaultCode (List Word)) :=
  match run cfg fuel (constructWith program inputs) with
  | none => none
  | some s =>
    match s.status with
    | .running => none
    | .halted => some (.ok (drain s.outQ.length s))
    | .faulted c _ => some (.error c)

end Sys2Proof.Machine
end

