-- ==== Sys2Proof/Machine/Network.lean ====
section
/-! DEFINITION. Several instances, the relays between them and the driver (R340 to R343, R350). Which agent moves next is
an argument (R340: the order is left open), so a statement over all moves is over every order. -/

namespace Sys2Proof.Machine

/-- Where a relay is in its cycle (R342); each of its Receive, Send and Close is one move (R330). -/
inductive RelayPhase where
  | ready
  | carrying (v : Word)
  | closing
  | stopped
deriving DecidableEq, Repr

/-- R342: a relay from the output of instance `src` to the input of instance `dst`; with `feedback` set, the relay of a ring
that is the driver itself (R343), which stops at the halt sentinel. -/
structure Relay where
  src : Nat
  dst : Nat
  feedback : Bool
  phase : RelayPhase
  /-- R343: the last value forwarded -/
  last : Option Word
deriving DecidableEq, Repr

/-- The instances, the relays, and the items the driver has received, each with its instance (R350), oldest first; what a
feedback relay receives is among them, since it is the driver (R343). -/
structure Network where
  instances : List State
  relays : List Relay
  received : List (Nat × OutItem)
deriving DecidableEq, Repr

/-- R330, R340: one move of one agent; R341, R400, R401: a new instance, constructed from its own copy of a program, starts
beside the others. -/
inductive Move where
  | construct (program : List Word)
  | engine (i : Nat)
  | relay (r : Nat)
  | send (i : Nat) (v : Word)
  | close (i : Nat)
  | receive (i : Nat)
  | disconnect (i : Nat)
deriving DecidableEq, Repr

/-- The network with instance `i` replaced. -/
def Network.setInstance (n : Network) (i : Nat) (s : State) : Network := { n with instances := n.instances.set i s }

/-- The network with relay `r` replaced. -/
def Network.setRelay (n : Network) (r : Nat) (x : Relay) : Network := { n with relays := n.relays.set r x }

/-- One step of instance `i`; an instance that holds or has ended is not enabled (R338, R37). -/
def Network.engineMove (cfg : Config) (n : Network) (i : Nat) : Option Network :=
  match n.instances[i]? with
  | none => none
  | some s =>
    if s.status.ended || heldIn cfg s then none
    else
      match stepIn cfg s with
      | .next t => some (n.setInstance i t)
      | .fault _ => none
      | .refused _ => none

/-- A Send to instance `i` (R331). -/
def Network.sendTo (n : Network) (i : Nat) (v : Word) : Option Network :=
  match n.instances[i]? with
  | none => none
  | some s =>
    match Driver.send v s with
    | .next t => some (n.setInstance i t)
    | .fault _ => none
    | .refused _ => none

/-- R343, R350: what a feedback relay receives, the driver receives. -/
def Network.keepReceived (n : Network) (x : Relay) (item : OutItem) : Network :=
  { n with received := if x.feedback then n.received ++ [(x.src, item)] else n.received }

/-- R342, R343: one operation of relay `r`. A value received is sent on; a halt sentinel or a disconnection closes the
input of `dst`, but for the sentinel of a feedback relay, which only stops it. Two points are the model's choice (log entry
7): that a feedback relay closes on a disconnection, and that a relay whose destination's input is closed already stays
with its value. -/
def Network.relayMove (n : Network) (r : Nat) : Option Network :=
  match n.relays[r]? with
  | none => none
  | some x =>
    match x.phase with
    | .ready =>
      match n.instances[x.src]? with
      | none => none
      | some s =>
        match Driver.receive s with
        | .item (.value v) t =>
          some (((n.setInstance x.src t).setRelay r { x with phase := .carrying v, last := some v }).keepReceived x
            (.value v))
        | .item .haltSentinel t =>
          some (((n.setInstance x.src t).setRelay r
            { x with phase := if x.feedback then .stopped else .closing }).keepReceived x .haltSentinel)
        | .disconnected => some (n.setRelay r { x with phase := .closing })
        | .waits => none
    | .carrying v => (n.sendTo x.dst v).map (fun m => m.setRelay r { x with phase := .ready })
    | .closing =>
      match n.instances[x.dst]? with
      | none => none
      | some s => some ((n.setInstance x.dst (Driver.close s)).setRelay r { x with phase := .stopped })
    | .stopped => none

/-! ### One producer and one consumer for each endpoint (R78) -/

/-- R78: no two relays receive from one instance or send to one instance. -/
def Network.wired (n : Network) : Bool :=
  decide (n.relays.Pairwise (fun x y => x.src ≠ y.src ∧ x.dst ≠ y.dst))

/-- R78, R343: the driver is the producer of input `i`: no relay but its own (a feedback relay) sends there. -/
def Network.driverFeeds (n : Network) (i : Nat) : Bool :=
  n.relays.all (fun x => decide (x.dst ≠ i) || x.feedback)

/-- R78, R343: the driver is the consumer of output `i`: no relay but its own receives there. -/
def Network.driverDrains (n : Network) (i : Nat) : Bool :=
  n.relays.all (fun x => decide (x.src ≠ i) || x.feedback)

/-- R343: the driver receives from output `i` as itself: its own relay there, which forwards each value, has stopped. -/
def Network.relayDone (n : Network) (i : Nat) : Bool :=
  n.relays.all (fun x => decide (x.src ≠ i) || decide (x.phase = .stopped))

/-- The driver's Close of the input of instance `i` (R332). -/
def Network.closeInput (n : Network) (i : Nat) : Option Network :=
  (n.instances[i]?).map (fun s => n.setInstance i (Driver.close s))

/-- The driver's Receive from instance `i` (R333). -/
def Network.receiveFrom (n : Network) (i : Nat) : Option Network :=
  match n.instances[i]? with
  | none => none
  | some s =>
    match Driver.receive s with
    | .item x t => some { n.setInstance i t with received := n.received ++ [(i, x)] }
    | .disconnected => some n
    | .waits => none

/-- The driver's Disconnect from instance `i` (R334). -/
def Network.disconnectFrom (n : Network) (i : Nat) : Option Network :=
  (n.instances[i]?).map (fun s => n.setInstance i (Driver.disconnect s))

/-- One move of the network; `none` where the agent is not enabled. A relay moves only in a network where it shares no
endpoint, and the driver uses only the endpoints whose producer or consumer it is (R78). -/
def Network.move (cfg : Config) (m : Move) (n : Network) : Option Network :=
  match m with
  | .construct program => some { n with instances := n.instances ++ [Sys2Proof.Machine.construct program] }
  | .engine i => n.engineMove cfg i
  | .relay r => if n.wired then n.relayMove r else none
  | .send i v => if n.driverFeeds i then n.sendTo i v else none
  | .close i => if n.driverFeeds i then n.closeInput i else none
  | .receive i => if n.driverDrains i && n.relayDone i then n.receiveFrom i else none
  | .disconnect i => if n.driverDrains i then n.disconnectFrom i else none

/-- A schedule of moves, oldest first; `none` where some move is not enabled. -/
def Network.moves (cfg : Config) : List Move → Network → Option Network
  | [], n => some n
  | m :: ms, n => (n.move cfg m).bind (Network.moves cfg ms)

/-! ### Endless runs and weak fairness (R340, R421) -/

/-- A run without end: at each point one move is made, or none (a network in which nothing more is enabled stays as it is). -/
def isRun (cfg : Config) (moves : Nat → Option Move) (networks : Nat → Network) : Prop :=
  ∀ k, match moves k with
    | some m => (networks k).move cfg m = some (networks (k + 1))
    | none => networks (k + 1) = networks k

/-- R331 to R334: the moves that are the driver's own operations. -/
def isDriverMove : Move → Bool
  | .engine _ | .relay _ => false
  | .construct _ | .send _ _ | .close _ | .receive _ | .disconnect _ => true

/-- R333, R335, R338: the operations the driver is about to do at each point of a run, one for each of its threads. It does
no other operation, and one that it has begun (a Receive that waits) stays until it is done. A driver with nothing to do has
none, and is never enabled. -/
def isDriverPlan (moves : Nat → Option Move) (pending : Nat → List Move) : Prop :=
  (∀ k, ∀ m ∈ pending k, isDriverMove m = true) ∧
  (∀ k m, moves k = some m → isDriverMove m = true → m ∈ pending k) ∧
  (∀ k, ∀ m ∈ pending k, moves k ≠ some m → m ∈ pending (k + 1))

/-- R340: a move that can be made. -/
def Network.enables (cfg : Config) (n : Network) (m : Move) : Bool := (n.move cfg m).isSome

/-- R421: weak fairness, the assumption that a claim that a run ends rests on: the step of an instance or a relay that stays
enabled from some point on is taken after every point, and so is an operation of the driver that stays pending and enabled. -/
def weaklyFair (cfg : Config) (moves : Nat → Option Move) (networks : Nat → Network) (pending : Nat → List Move) : Prop :=
  isDriverPlan moves pending ∧
  ∀ m k, (∀ j, k ≤ j → (networks j).enables cfg m = true ∧ (isDriverMove m = true → m ∈ pending j)) →
    ∃ j, k ≤ j ∧ moves j = some m

/-- R350: the run of the network has ended. -/
def Network.ended (n : Network) : Bool :=
  n.instances.all (fun s => s.status.ended) && n.relays.all (fun x => decide (x.phase = .stopped))

end Sys2Proof.Machine
end

