-- ==== Sys2Proof/Safety.lean ====
section
/-! DEFINITION. The terms claims are made in: the parameters of an instruction, what each reads and where it writes, the
first fault of their resolution, the growth of memory, and the invariant of an instance. They say in closed form, from
the state in which a step begins, what Operands.lean computes read by read. All are of this hardware (`Config.hw`). -/

namespace Sys2Proof.Machine

/-- R23, R103: a parameter is read or written. -/
inductive ParamKind where
  | read
  | write
deriving DecidableEq, Repr

/-- R105: the parameters of an instruction in order, each with its mode. -/
def paramsOf : Instr → List (ParamKind × Mode)
  | .add m0 m1 m2 | .mul m0 m1 m2 | .lt m0 m1 m2 | .eq m0 m1 m2 => [(.read, m0), (.read, m1), (.write, m2)]
  | .inp m0 _ _ => [(.write, m0)]
  | .out m0 _ _ | .arb m0 _ _ => [(.read, m0)]
  | .jt m0 m1 _ | .jf m0 m1 _ => [(.read, m0), (.read, m1)]
  | .hlt _ _ _ => []

/-- R22: the parameter word `P[k]`. -/
def State.param (s : State) (k : Nat) : Word := s.mem.read (s.pc.toNat + (1 + k))

/-- R102: the address parameter `k` names in a mode, before any check; an immediate names none. -/
def State.paramAddress (s : State) (k : Nat) (m : Mode) : Option Int :=
  match m with
  | .position => some (s.param k).toInt
  | .immediate => none
  | .relative => some (s.rb.toInt + (s.param k).toInt)

/-- R121 to R124: the fault of resolving parameter `k`, if any. -/
def State.paramFault (s : State) (k : Nat) (kind : ParamKind) (m : Mode) : Option FaultCode :=
  match m with
  | .position => if (s.param k).toInt < 0 then some .invalidAddress else none
  | .immediate =>
    match kind with
    | .read => none
    | .write => some .invalidAddressingMode
  | .relative =>
    if InInt64 (s.rb.toInt + (s.param k).toInt) then
      if s.rb.toInt + (s.param k).toInt < 0 then some .invalidAddress else none
    else some .arithmeticOverflow

/-- R120, R306: the first fault of resolving parameters `k`, `k + 1`, … in order. -/
def State.firstFault (s : State) : Nat → List (ParamKind × Mode) → Option FaultCode
  | _, [] => none
  | k, (kind, m) :: rest =>
    match s.paramFault k kind m with
    | some c => some c
    | none => s.firstFault (k + 1) rest

/-- R121 to R123: the value of read-parameter `k`. -/
def State.operand (s : State) (k : Nat) (m : Mode) : Word :=
  match s.paramAddress k m with
  | some a => s.mem.read a.toNat
  | none => s.param k

/-- R124: the word address write-parameter `k` stores to; an immediate gives none. -/
def State.target (s : State) (k : Nat) (m : Mode) : Option Nat := (s.paramAddress k m).map Int.toNat

/-- The word addresses that resolving parameter `k` reads or that it is going to write: the parameter word itself and the
cell it names. -/
def State.paramReach (s : State) (k : Nat) (m : Mode) : List Nat :=
  (s.pc.toNat + (1 + k)) :: (s.paramAddress k m).toList.map Int.toNat

/-- The word addresses parameters `k`, `k + 1`, … reach. -/
def State.paramsReach (s : State) : Nat → List (ParamKind × Mode) → List Nat
  | _, [] => []
  | k, (_, m) :: rest => s.paramReach k m ++ s.paramsReach (k + 1) rest

/-- R71: every word address a step of instruction `i` reads or writes. -/
def State.reach (s : State) (i : Instr) : List Nat := s.pc.toNat :: s.paramsReach 0 (paramsOf i)

/-- R66: the length of memory once every address of a list has been accessed. -/
def grown (len : Nat) (addresses : List Nat) : Nat :=
  addresses.foldl (fun n a => if n ≤ a then a + 1 else n) len

/-- R130 steps 1, 7 and 8: the instance runs, its `pc` is a word address, the parameter words and the next address are
representable, and every parameter of `i` resolves. -/
structure Ready (i : Instr) (s : State) : Prop where
  running : s.status = .running
  pcNonneg : 0 ≤ s.pc.toInt
  bound : paramsOf i ≠ [] → s.pc.toInt + 1 + (paramsOf i).length ≤ int64Max
  resolves : s.firstFault 0 (paramsOf i) = none

/-- The step ends in a fault of the engine. -/
def State.faultedState (s : State) : Bool :=
  match s.status with
  | .faulted _ _ => true
  | .running => false
  | .halted => false

/-- The invariant of an instance of this hardware. -/
structure State.Inv (s : State) : Prop where
  /-- canonical memory -/
  memWf : s.mem.wf = true
  /-- R39: every cell at an address ≥ `mem_len` holds 0 -/
  memBelow : ∀ c ∈ s.mem, c.1 < s.memLen
  /-- R61: addresses end at 2^63 − 1, so the length ends at 2^63 (log entry 16) -/
  lenBound : s.memLen ≤ 9223372036854775808
  /-- R31, R33: `pc` is never negative -/
  pcNonneg : 0 ≤ s.pc.toInt
  /-- R334, R44: nothing is queued for a consumer that is gone -/
  goneEmpty : s.outGone = true → s.outQ = []
  /-- R233: no item follows a halt sentinel -/
  sentinelLast : OutItem.haltSentinel ∉ s.outQ.dropLast
  /-- R290, C6: only a halted instance has sent the sentinel -/
  sentinelHalted : OutItem.haltSentinel ∈ s.outQ → s.status = .halted
  /-- R312, R302: the fault record names the faulting instruction, and on this hardware no fault is CapacityExceeded -/
  faultRecord : ∀ c fpc, s.status = .faulted c fpc → fpc = s.pc ∧ c ≠ .capacityExceeded

/-- R46: two states that differ at most in what a program never observes: `mem_len`, the output queue and whether its
consumer is gone. -/
structure SameToProgram (s t : State) : Prop where
  mem : s.mem = t.mem
  pc : s.pc = t.pc
  rb : s.rb = t.rb
  status : s.status = t.status
  inQ : s.inQ = t.inQ
  inClosed : s.inClosed = t.inClosed

end Sys2Proof.Machine
end

