-- ==== Sys2Proof/Certificates/Slice0/Obligations.lean ====
section
/-! DEFINITION. The statements for the provers, grouped by the spec's files. -/

open Sys2Proof Sys2Proof.Machine

/-! ### 30_encoding.md: decode and encode -/

/-- R101, R106, R114, R118: under either setting of STRICT_UNUSED_MODES, every legal instruction, with every mode and every
unused digit, is what its own word decodes to. -/
def Obligations.DecodeInvertsEncode : Prop :=
  ∀ (cfg : Config) (i : Instr), i.wfIn cfg = true → decodeIn cfg (encode i) = .ok i

/-- R106, R118: each legal word has one meaning; what decodes is legal and encodes back to the word. -/
def Obligations.EncodeInvertsDecode : Prop :=
  ∀ (cfg : Config) (w : Word) (i : Instr), decodeIn cfg w = .ok i → i.wfIn cfg = true ∧ encode i = w

/-- R106: the table of legal instruction words of this hardware, row by row, and no other word (the spec's own decisions D4
to D7). -/
def Obligations.LegalWordsAreTheTable : Prop :=
  ∀ w : Word, (∃ i, decode w = .ok i) ↔
    ∃ op m0 m1 m2 : Nat,
      (((op = 1 ∨ op = 2 ∨ op = 7 ∨ op = 8) ∧ m0 ≤ 2 ∧ m1 ≤ 2 ∧ (m2 = 0 ∨ m2 = 2)) ∨
        (op = 3 ∧ (m0 = 0 ∨ m0 = 2) ∧ m1 ≤ 2 ∧ m2 ≤ 2) ∨
        ((op = 4 ∨ op = 9 ∨ op = 5 ∨ op = 6 ∨ op = 99) ∧ m0 ≤ 2 ∧ m1 ≤ 2 ∧ m2 ≤ 2)) ∧
      w.toInt = (op + 100 * m0 + 1000 * m1 + 10000 * m2 : Nat)

/-- R106, L2.1: there are 225 legal words (under the spec's own decisions D4 to D7). -/
def Obligations.LegalWordsNumber225 : Prop :=
  ∃ l : List Word, l.Nodup ∧ l.length = 225 ∧ ∀ w, w ∈ l ↔ ∃ i, decode w = .ok i

/-- R111 to R115 in the order of R130 steps 2 to 6, as a chain of exclusive cases over the integer value of the word: a
negative word, a low-two-digit value that is no opcode, a digit above the ten-thousands, a mode digit above 2, and mode 1
on the write parameter (parameter 2 of opcodes 1, 2, 7, 8, parameter 0 of opcode 3). In every other case an instruction with
that opcode results (the spec's own decisions D4, D5, D6, D7 and D19). -/
def Obligations.DecodeFaultsInOrder : Prop :=
  ∀ w : Word,
    if w.toInt < 0 then decode w = .error .invalidOpcode
    else if w.toInt % 100 ∉ [1, 2, 3, 4, 5, 6, 7, 8, 9, 99] then decode w = .error .invalidOpcode
    else if 100000 ≤ w.toInt then decode w = .error .invalidAddressingMode
    else if 2 < w.toInt / 100 % 10 ∨ 2 < w.toInt / 1000 % 10 ∨ 2 < w.toInt / 10000 % 10 then
      decode w = .error .invalidAddressingMode
    else if (w.toInt % 100 ∈ [1, 2, 7, 8] ∧ w.toInt / 10000 % 10 = 1) ∨ (w.toInt % 100 = 3 ∧ w.toInt / 100 % 10 = 1) then
      decode w = .error .invalidAddressingMode
    else ∃ i, decode w = .ok i ∧ (i.opcode : Int) = w.toInt % 100

/-- R106, L2.1: words written out from the decimal fields of R101, each with the instruction it stands for. -/
def Obligations.SpecWordsDecode : Prop :=
  decode 1002 = .ok (.mul .position .immediate .position) ∧
  decode 21101 = .ok (.add .immediate .immediate .relative) ∧
  decode 203 = .ok (.inp .relative 0 0) ∧
  decode 1104 = .ok (.out .immediate 1 0) ∧
  decode 1105 = .ok (.jt .immediate .immediate 0) ∧
  decode 106 = .ok (.jf .immediate .position 0) ∧
  decode 1107 = .ok (.lt .immediate .immediate .position) ∧
  decode 20108 = .ok (.eq .immediate .position .relative) ∧
  decode 209 = .ok (.arb .relative 0 0) ∧
  decode 20099 = .ok (.hlt 0 0 2)

/-- R116: the digits of the parameters an instruction does not have have no effect on what it does. -/
def Obligations.UnusedDigitsHaveNoEffect : Prop :=
  ∀ (m0 m1 : Mode) (d0 d1 d2 e0 e1 e2 : Digit) (s : State),
    exec (.inp m0 d1 d2) s = exec (.inp m0 e1 e2) s ∧
    exec (.out m0 d1 d2) s = exec (.out m0 e1 e2) s ∧
    exec (.arb m0 d1 d2) s = exec (.arb m0 e1 e2) s ∧
    exec (.jt m0 m1 d2) s = exec (.jt m0 m1 e2) s ∧
    exec (.jf m0 m1 d2) s = exec (.jf m0 m1 e2) s ∧
    exec (.hlt d0 d1 d2) s = exec (.hlt e0 e1 e2) s

/-- R121, R122, R123 for any configuration: a position-mode read is a read of memory at the parameter word and faults
InvalidAddress at a negative one; a relative-mode read is a read of memory at the sum with `rb`, where a sum outside int64
traps or wraps and a negative address faults InvalidAddress; an immediate is the parameter word itself, and reads nothing. -/
def Obligations.OperandResolution : Prop :=
  ∀ (cfg : Config) (p : Word) (s : State),
    operandValue cfg .position p s = memRead cfg p s ∧
    (p.toInt < 0 → operandValue cfg .position p s = .error .invalidAddress) ∧
    (InInt64 (s.rb.toInt + p.toInt) →
      operandValue cfg .relative p s = memRead cfg (wordOfInt (s.rb.toInt + p.toInt)) s) ∧
    (¬ InInt64 (s.rb.toInt + p.toInt) → cfg.overflow = .trap →
      operandValue cfg .relative p s = .error .arithmeticOverflow) ∧
    (¬ InInt64 (s.rb.toInt + p.toInt) → cfg.overflow = .wrap →
      operandValue cfg .relative p s = memRead cfg (s.rb + p) s) ∧
    (InInt64 (s.rb.toInt + p.toInt) → s.rb.toInt + p.toInt < 0 →
      operandValue cfg .relative p s = .error .invalidAddress) ∧
    (cfg.overflow = .wrap → (s.rb + p).toInt < 0 → operandValue cfg .relative p s = .error .invalidAddress) ∧
    operandValue cfg .immediate p s = .ok (p, s)

/-! ### 20_memory.md: memory -/

/-- R67: after MemWrite, MemRead of the same address returns the value written, and grows nothing more; every other address
reads as before. The address may lie past the program. -/
def Obligations.ReadReturnsLastWrite : Prop :=
  ∀ (s : State) (a v : Word), s.mem.wf = true → 0 ≤ a.toInt →
    ∃ t, memWrite Config.hw a v s = .ok t ∧ memRead Config.hw a t = .ok (v, t) ∧
      ∀ b : Word, 0 ≤ b.toInt → b ≠ a →
        ∃ u, memRead Config.hw b t = .ok (s.mem.read b.toNat, u)

/-- R64, R65 for any configuration: a negative address is InvalidAddress, whatever the capacity; then an address at or past a
finite capacity is CapacityExceeded; any other access is made, and grows memory to take the address in. Where no cell at or
past `mem_len` is listed (part of the invariant), a read past the end returns 0. -/
def Obligations.MemoryAccessChecks : Prop :=
  ∀ (cfg : Config) (s : State) (a v : Word),
    (a.toInt < 0 → memRead cfg a s = .error .invalidAddress ∧ memWrite cfg a v s = .error .invalidAddress) ∧
    (∀ n, cfg.memCapacity = some n → 0 ≤ a.toInt → (n : Int) ≤ a.toInt →
      memRead cfg a s = .error .capacityExceeded ∧ memWrite cfg a v s = .error .capacityExceeded) ∧
    (0 ≤ a.toInt → (∀ n, cfg.memCapacity = some n → a.toInt < n) →
      memRead cfg a s = .ok (s.mem.read a.toNat, { s with memLen := max s.memLen (a.toNat + 1) }) ∧
      memWrite cfg a v s =
        .ok { s with mem := s.mem.write a.toNat v, memLen := max s.memLen (a.toNat + 1) }) ∧
    ((∀ c ∈ s.mem, c.1 < s.memLen) → s.memLen ≤ a.toNat → s.mem.read a.toNat = 0#64)

/-- R66: `mem_len` after any step is at least `mem_len` before it. -/
def Obligations.MemoryNeverShrinks : Prop :=
  ∀ s t : State, step s = .next t → s.memLen ≤ t.memLen

/-- R39, R68: memory in canonical form is determined by what it reads as. -/
def Obligations.CanonicalMemoryIsItsReads : Prop :=
  ∀ m n : Memory, m.wf = true → n.wf = true → (∀ a, m.read a = n.read a) → m = n

/-! ### 10_state.md and 70_reset_and_hazards.md: reset -/

/-- R49: the reset values of every register and queue, at the empty program (`pc` = 0 is the spec's own decision D3; that
State.reset is the construction from the empty program is the model's choice, log entry 2). -/
def Obligations.ResetValues : Prop :=
  State.reset.pc = 0 ∧ State.reset.rb = 0 ∧ State.reset.status = .running ∧ State.reset.memLen = 0 ∧
  (∀ a, State.reset.mem.read a = 0) ∧ State.reset.inQ = [] ∧ State.reset.inClosed = false ∧
  State.reset.outQ = [] ∧ State.reset.outGone = false

/-- R49, R402, R403, R404: construction places the program from address 0 on, everything past it reads 0, `mem_len` is its
length, and `run_with` queues the inputs in order and closes the input (the spec's own decisions D3, D24 and D28; for a
program longer than 2^63 words this is the model's choice, log entry 20). -/
def Obligations.ConstructionPlacesProgram : Prop :=
  ∀ program inputs : List Word,
    (∀ a v, program[a]? = some v → (construct program).mem.read a = v) ∧
    (∀ a, program.length ≤ a → (construct program).mem.read a = 0) ∧
    construct program = { State.reset with mem := (construct program).mem, memLen := program.length } ∧
    constructWith program inputs = { construct program with inQ := inputs, inClosed := true }

/-- State.reset has the invariant. -/
def Obligations.ResetHasInvariant : Prop := State.reset.Inv

/-- Every construction from a program that fits the address space (2^63 words; past it, log entry 20) has the invariant. -/
def Obligations.ConstructionHasInvariant : Prop :=
  ∀ program inputs : List Word, program.length ≤ 9223372036854775808 →
    (construct program).Inv ∧ (constructWith program inputs).Inv

/-! ### 30_encoding.md: the step -/

/-- R110, R130: where the word at `pc` decodes, a step of a Running instance is exactly the decoded instruction; nothing is
added around it. -/
def Obligations.StepRunsDecodedInstruction : Prop :=
  ∀ (s : State) (i : Instr), s.status = .running → 0 ≤ s.pc.toInt →
    decode (s.mem.read s.pc.toNat) = .ok i → step s = exec i s

/-- R110 to R115, R312: where the word at `pc` does not decode, the step enters the fault that decode names. -/
def Obligations.StepTakesDecodeFault : Prop :=
  ∀ (s : State) (c : FaultCode), s.status = .running → 0 ≤ s.pc.toInt →
    decode (s.mem.read s.pc.toNat) = .error c → step s = .next { s with status := .faulted c s.pc }

/-- R111: a negative instruction word, fetched by a Running instance, enters Faulted(InvalidOpcode, pc) (the spec's own
decision D4). -/
def Obligations.NegativeWordFaults : Prop :=
  ∀ s : State, s.status = .running → 0 ≤ s.pc.toInt → (s.mem.read s.pc.toNat).toInt < 0 →
    step s = .next { s with status := .faulted .invalidOpcode s.pc }

/-- R112: a word that is not negative and whose two low digits are no opcode enters Faulted(InvalidOpcode, pc); the
low-two-digit values that fault are 0 and 10 to 98. That this fault comes before a fault of the word's other digits is the
spec's own decision D19, and that nothing but `status` changes its decision D16. -/
def Obligations.UnknownOpcodeFaults : Prop :=
  ∀ s : State, s.status = .running → 0 ≤ s.pc.toInt → 0 ≤ (s.mem.read s.pc.toNat).toInt →
    ((s.mem.read s.pc.toNat).toInt % 100 = 0 ∨
      (10 ≤ (s.mem.read s.pc.toNat).toInt % 100 ∧ (s.mem.read s.pc.toNat).toInt % 100 ≤ 98)) →
    step s = .next { s with status := .faulted .invalidOpcode s.pc }

/-- R130: a legal instruction placed at `pc` of the reset state by withFetchWord is fetched and run as that instruction by the
next step (that a program is placed from outside is the model's choice, log entry 2). -/
def Obligations.PlacedInstructionRuns : Prop :=
  ∀ i : Instr, i.wf = true →
    step (State.reset.withFetchWord 64 (encode i).toNat) = exec i (State.reset.withFetchWord 64 (encode i).toNat)

/-- R37: once an instance is Halted or Faulted, its `status` never changes again and no later step changes any of its state,
however many are taken. -/
def Obligations.EndedInstanceNeverChanges : Prop :=
  ∀ (k : Nat) (s t : State), s.status ≠ .running → core.run k s = .next t → t = s

/-- R118, R130, R300: no step stops the model: from every state every number of steps answers a state. That a fault of the
engine is a next state, so that no step answers `fault` or `refused`, is the model's choice, log entry 5 (read from R310 and
R312); that a step of a held or an ended instance answers its own state is log entries 3 and 4. -/
def Obligations.EveryRunAnswersState : Prop :=
  ∀ (k : Nat) (s : State), ∃ t, core.run k s = .next t

/-- The invariant of an instance is kept by every step, from every state that has it. -/
def Obligations.StepKeepsInvariant : Prop :=
  ∀ s t : State, s.Inv → step s = .next t → t.Inv

/-- R131, R310, R312: a step that faults changes `status` and nothing else, and records the address of the faulting
instruction (the spec's own decision D16). -/
def Obligations.FaultsArePrecise : Prop :=
  ∀ (s t : State) (c : FaultCode) (fpc : Word), s.status = .running → step s = .next t →
    t.status = .faulted c fpc → t = { s with status := .faulted c s.pc }

/-- R32, R244: what each instruction does to `pc` when it neither faults nor holds: the jumps take their target or pass
their three words, Halt leaves it (the spec's own decision D9), and every other instruction advances by its width. -/
def Obligations.PcRule : Prop :=
  ∀ (i : Instr) (s t : State), exec i s = .next t →
    (∃ c, t = { s with status := .faulted c s.pc }) ∨
    match i with
    | .add _ _ _ | .mul _ _ _ | .lt _ _ _ | .eq _ _ _ => t.pc = s.pc + 4#64
    | .inp _ _ _ => t = s ∨ t.pc = s.pc + 2#64
    | .out _ _ _ | .arb _ _ _ => t.pc = s.pc + 2#64
    | .jt m0 m1 _ => t.pc = if s.operand 0 m0 ≠ 0#64 then s.operand 1 m1 else s.pc + 3#64
    | .jf m0 m1 _ => t.pc = if s.operand 0 m0 = 0#64 then s.operand 1 m1 else s.pc + 3#64
    | .hlt _ _ _ => t.pc = s.pc

/-- R35: a step that changes `rb` is a step of AdjustRelativeBase. -/
def Obligations.RelativeBaseOnlyByArb : Prop :=
  ∀ s t : State, step s = .next t → t.rb ≠ s.rb →
    ∃ m0 d1 d2, decode (s.mem.read s.pc.toNat) = .ok (.arb m0 d1 d2)

/-- R46: a program never observes `out_q`, `out_gone` or `mem_len`. Two instances that agree on everything else agree on it
after any number of steps. -/
def Obligations.OutputIsUnobservable : Prop :=
  ∀ (k : Nat) (s t : State), SameToProgram s t →
    ∃ s' t', core.run k s = .next s' ∧ core.run k t = .next t' ∧ SameToProgram s' t'

/-- R222, R78, R79: over any number of steps an instance takes values from the head of `in_q`, in order, and appends items
at the tail of `out_q`. -/
def Obligations.QueuesAreFifo : Prop :=
  ∀ (k : Nat) (s t : State), core.run k s = .next t →
    (∃ taken, s.inQ = taken ++ t.inQ) ∧ (∃ sent, t.outQ = s.outQ ++ sent) ∧
    t.inClosed = s.inClosed ∧ t.outGone = s.outGone

/-! ### The instructions: what each does -/

/-- R200: Add writes the sum of its operands to its target and advances by 4, wherever its parameters resolve and the sum is
inside int64. -/
def Obligations.AddWritesSum : Prop :=
  ∀ (m0 m1 m2 : Mode) (s : State) (a : Nat), Ready (.add m0 m1 m2) s → s.target 2 m2 = some a →
    InInt64 ((s.operand 0 m0).toInt + (s.operand 1 m1).toInt) →
    exec (.add m0 m1 m2) s = .next { s with
      mem := s.mem.write a (wordOfInt ((s.operand 0 m0).toInt + (s.operand 1 m1).toInt))
      memLen := grown s.memLen (s.reach (.add m0 m1 m2))
      pc := s.pc + 4#64 }

/-- R201: Multiply writes the exact product of its operands to its target and advances by 4, wherever its parameters resolve
and the product is inside int64. -/
def Obligations.MultiplyWritesProduct : Prop :=
  ∀ (m0 m1 m2 : Mode) (s : State) (a : Nat), Ready (.mul m0 m1 m2) s → s.target 2 m2 = some a →
    InInt64 ((s.operand 0 m0).toInt * (s.operand 1 m1).toInt) →
    exec (.mul m0 m1 m2) s = .next { s with
      mem := s.mem.write a (wordOfInt ((s.operand 0 m0).toInt * (s.operand 1 m1).toInt))
      memLen := grown s.memLen (s.reach (.mul m0 m1 m2))
      pc := s.pc + 4#64 }

/-- R260, R262: LessThan writes 1 where its first operand is less than its second as signed integers, else 0, and advances
by 4, wherever its parameters resolve. -/
def Obligations.LessThanWritesComparison : Prop :=
  ∀ (m0 m1 m2 : Mode) (s : State) (a : Nat), Ready (.lt m0 m1 m2) s → s.target 2 m2 = some a →
    exec (.lt m0 m1 m2) s = .next { s with
      mem := s.mem.write a (if (s.operand 0 m0).toInt < (s.operand 1 m1).toInt then 1#64 else 0#64)
      memLen := grown s.memLen (s.reach (.lt m0 m1 m2))
      pc := s.pc + 4#64 }

/-- R261, R262: Equals writes 1 where its operands are the same integer, else 0, and advances by 4, wherever its parameters
resolve. -/
def Obligations.EqualsWritesComparison : Prop :=
  ∀ (m0 m1 m2 : Mode) (s : State) (a : Nat), Ready (.eq m0 m1 m2) s → s.target 2 m2 = some a →
    exec (.eq m0 m1 m2) s = .next { s with
      mem := s.mem.write a (if (s.operand 0 m0).toInt = (s.operand 1 m1).toInt then 1#64 else 0#64)
      memLen := grown s.memLen (s.reach (.eq m0 m1 m2))
      pc := s.pc + 4#64 }

/-- R220: Input takes the head of a queue that is not empty into its target, unchanged, and advances by 2, whether the
producer has closed or not (R42). -/
def Obligations.InputTakesHead : Prop :=
  ∀ (m0 : Mode) (d1 d2 : Digit) (s : State) (a : Nat) (v : Word) (rest : List Word),
    Ready (.inp m0 d1 d2) s → s.target 0 m0 = some a → s.inQ = v :: rest →
    exec (.inp m0 d1 d2) s = .next { s with
      mem := s.mem.write a v
      memLen := grown s.memLen (s.reach (.inp m0 d1 d2))
      inQ := rest
      pc := s.pc + 2#64 }

/-- R230: while the consumer is there, Output appends the value of its operand to the output and advances by 2. -/
def Obligations.OutputAppendsValue : Prop :=
  ∀ (m0 : Mode) (d1 d2 : Digit) (s : State), Ready (.out m0 d1 d2) s → s.outGone = false →
    exec (.out m0 d1 d2) s = .next { s with
      memLen := grown s.memLen (s.reach (.out m0 d1 d2))
      outQ := s.outQ ++ [.value (s.operand 0 m0)]
      pc := s.pc + 2#64 }

/-- R232: when the consumer is gone, Output discards its value, advances by 2 and raises nothing. -/
def Obligations.OutputDiscardsWhenGone : Prop :=
  ∀ (m0 : Mode) (d1 d2 : Digit) (s : State), Ready (.out m0 d1 d2) s → s.outGone = true →
    exec (.out m0 d1 d2) s = .next { s with
      memLen := grown s.memLen (s.reach (.out m0 d1 d2))
      pc := s.pc + 2#64 }

/-- R240, R262: JumpIfTrue goes to its target's value where its condition is any nonzero value and the target is not
negative, and past its three words where the condition is 0, whatever the target's value. -/
def Obligations.JumpIfTrueTakesNonzero : Prop :=
  ∀ (m0 m1 : Mode) (d2 : Digit) (s : State), Ready (.jt m0 m1 d2) s →
    (s.operand 0 m0 ≠ 0#64 → 0 ≤ (s.operand 1 m1).toInt →
      exec (.jt m0 m1 d2) s = .next { s with
        memLen := grown s.memLen (s.reach (.jt m0 m1 d2))
        pc := s.operand 1 m1 }) ∧
    (s.operand 0 m0 = 0#64 →
      exec (.jt m0 m1 d2) s = .next { s with
        memLen := grown s.memLen (s.reach (.jt m0 m1 d2))
        pc := s.pc + 3#64 })

/-- R241: JumpIfFalse goes to its target's value where its condition is 0 and the target is not negative, and past its three
words on any other condition. -/
def Obligations.JumpIfFalseTakesZero : Prop :=
  ∀ (m0 m1 : Mode) (d2 : Digit) (s : State), Ready (.jf m0 m1 d2) s →
    (s.operand 0 m0 = 0#64 → 0 ≤ (s.operand 1 m1).toInt →
      exec (.jf m0 m1 d2) s = .next { s with
        memLen := grown s.memLen (s.reach (.jf m0 m1 d2))
        pc := s.operand 1 m1 }) ∧
    (s.operand 0 m0 ≠ 0#64 →
      exec (.jf m0 m1 d2) s = .next { s with
        memLen := grown s.memLen (s.reach (.jf m0 m1 d2))
        pc := s.pc + 3#64 })

/-- R280, R281: AdjustRelativeBase adds its operand, read with the old `rb`, to `rb` and advances by 2, wherever the sum is
inside int64, negative sums included. -/
def Obligations.AdjustRelativeBaseAdds : Prop :=
  ∀ (m0 : Mode) (d1 d2 : Digit) (s : State), Ready (.arb m0 d1 d2) s →
    InInt64 (s.rb.toInt + (s.operand 0 m0).toInt) →
    exec (.arb m0 d1 d2) s = .next { s with
      memLen := grown s.memLen (s.reach (.arb m0 d1 d2))
      rb := wordOfInt (s.rb.toInt + (s.operand 0 m0).toInt)
      pc := s.pc + 2#64 }

/-- R290: Halt appends the halt sentinel, or discards it when the consumer is gone, and halts with `pc` unchanged (the
spec's own decision D9). -/
def Obligations.HaltSendsSentinel : Prop :=
  ∀ (d0 d1 d2 : Digit) (s : State), Ready (.hlt d0 d1 d2) s →
    exec (.hlt d0 d1 d2) s = .next { s with
      memLen := grown s.memLen (s.reach (.hlt d0 d1 d2))
      outQ := if s.outGone then s.outQ else s.outQ ++ [.haltSentinel]
      status := .halted }

/-! ### The instructions: where each faults or holds -/

/-- R120 to R125, R306: the first parameter, in order, whose resolution faults decides the fault of the step, for every
instruction and mode, used or not by the operation (an untaken jump's target included); nothing else changes (the spec's
own decisions D16 to D19). The statement takes in terms that decode never gives: that an immediate write parameter of one
faults InvalidAddressingMode when it is resolved, after the earlier parameters, is the model's choice, log entry 13 (R115 and
R130 step 6 raise it at decode). -/
def Obligations.FirstParameterFaultIsTaken : Prop :=
  ∀ (i : Instr) (s : State) (c : FaultCode), 0 ≤ s.pc.toInt → s.pc.toInt + 1 + (paramsOf i).length ≤ int64Max →
    s.firstFault 0 (paramsOf i) = some c → exec i s = .next { s with status := .faulted c s.pc }

/-- R119: an instruction with parameters whose last parameter word or following address is past the address space enters
InvalidAddress, before any parameter is resolved (the spec's own decision D21). -/
def Obligations.AddressBoundFaults : Prop :=
  ∀ (i : Instr) (s : State), 0 ≤ s.pc.toInt → paramsOf i ≠ [] →
    int64Max < s.pc.toInt + 1 + (paramsOf i).length →
    exec i s = .next { s with status := .faulted .invalidAddress s.pc }

/-- R203: a sum, a product or a new relative base outside int64 enters ArithmeticOverflow and writes nothing (the spec's own
decision D2). -/
def Obligations.OverflowTraps : Prop :=
  (∀ (m0 m1 m2 : Mode) (s : State), Ready (.add m0 m1 m2) s →
    ¬ InInt64 ((s.operand 0 m0).toInt + (s.operand 1 m1).toInt) →
    exec (.add m0 m1 m2) s = .next { s with status := .faulted .arithmeticOverflow s.pc }) ∧
  (∀ (m0 m1 m2 : Mode) (s : State), Ready (.mul m0 m1 m2) s →
    ¬ InInt64 ((s.operand 0 m0).toInt * (s.operand 1 m1).toInt) →
    exec (.mul m0 m1 m2) s = .next { s with status := .faulted .arithmeticOverflow s.pc }) ∧
  (∀ (m0 : Mode) (d1 d2 : Digit) (s : State), Ready (.arb m0 d1 d2) s →
    ¬ InInt64 (s.rb.toInt + (s.operand 0 m0).toInt) →
    exec (.arb m0 d1 d2) s = .next { s with status := .faulted .arithmeticOverflow s.pc })

/-- R242: a taken jump to a negative target enters InvalidAddress at the jump, and `pc` does not change (the spec's own
decision D8). -/
def Obligations.NegativeJumpTargetFaults : Prop :=
  ∀ (m0 m1 : Mode) (d2 : Digit) (s : State), (s.operand 1 m1).toInt < 0 →
    (Ready (.jt m0 m1 d2) s → s.operand 0 m0 ≠ 0#64 →
      exec (.jt m0 m1 d2) s = .next { s with status := .faulted .invalidAddress s.pc }) ∧
    (Ready (.jf m0 m1 d2) s → s.operand 0 m0 = 0#64 →
      exec (.jf m0 m1 d2) s = .next { s with status := .faulted .invalidAddress s.pc })

/-- R220, R221: Input on an empty queue enters InputExhausted when the producer has closed, and holds, changing nothing at
all, while it has not (waiting as a hold is the spec's own decision D12; that a hold is a step answering the same state is
the model's choice, log entry 3). -/
def Obligations.InputOnEmptyQueue : Prop :=
  ∀ (m0 : Mode) (d1 d2 : Digit) (s : State), Ready (.inp m0 d1 d2) s → s.inQ = [] →
    exec (.inp m0 d1 d2) s =
      .next (if s.inClosed then { s with status := .faulted .inputExhausted s.pc } else s)

/-- R36, R221: the instance is held exactly when it is Running, the instruction at `pc` is an Input whose target resolves,
the queue is empty and the producer has not closed (the spec's own decision D12). -/
def Obligations.HeldIsTheInputWait : Prop :=
  ∀ s : State, held s = true ↔
    s.inQ = [] ∧ s.inClosed = false ∧
      ∃ m0 d1 d2, decode (s.mem.read s.pc.toNat) = .ok (.inp m0 d1 d2) ∧ Ready (.inp m0 d1 d2) s

/-! ### Frames -/

/-- R71: Add, Multiply, LessThan and Equals, on whatever outcome: `rb`, the queues and the endpoint bits are unchanged,
`status` changes only by entering a fault, and every word of memory reads as before but the one at the target of parameter
2; a form with no target changes no word. -/
def Obligations.ThreeOperandFrame : Prop :=
  ∀ (m0 m1 m2 : Mode) (i : Instr) (s t : State),
    i ∈ [Instr.add m0 m1 m2, .mul m0 m1 m2, .lt m0 m1 m2, .eq m0 m1 m2] → exec i s = .next t →
    t.rb = s.rb ∧ t.inQ = s.inQ ∧ t.inClosed = s.inClosed ∧ t.outQ = s.outQ ∧ t.outGone = s.outGone ∧
    (t.status = s.status ∨ ∃ c, t.status = .faulted c s.pc) ∧
    (∀ a, s.target 2 m2 = some a → ∀ b, b ≠ a → t.mem.read b = s.mem.read b) ∧
    (s.target 2 m2 = none → ∀ b, t.mem.read b = s.mem.read b)

/-- R71: Input, on whatever outcome: `rb`, the output and the endpoint bits are unchanged, `in_q` loses at most its head,
`status` changes only by entering a fault, and every word of memory reads as before but the one at the target. -/
def Obligations.InputFrame : Prop :=
  ∀ (m0 : Mode) (d1 d2 : Digit) (s t : State), exec (.inp m0 d1 d2) s = .next t →
    t.rb = s.rb ∧ t.inClosed = s.inClosed ∧ t.outQ = s.outQ ∧ t.outGone = s.outGone ∧
    (t.inQ = s.inQ ∨ ∃ v, s.inQ = v :: t.inQ) ∧
    (t.status = s.status ∨ ∃ c, t.status = .faulted c s.pc) ∧
    (∀ a, s.target 0 m0 = some a → ∀ b, b ≠ a → t.mem.read b = s.mem.read b) ∧
    (s.target 0 m0 = none → ∀ b, t.mem.read b = s.mem.read b)

/-- R71, R35, R43: Output, the jumps, AdjustRelativeBase and Halt, on whatever outcome, write no word of memory, take no
input and leave the endpoint bits; only AdjustRelativeBase changes `rb`, only Output and Halt change `out_q`, and only Halt
halts. -/
def Obligations.NonStoringFrame : Prop :=
  ∀ (m0 m1 : Mode) (d0 d1 d2 : Digit) (i : Instr) (s t : State),
    i ∈ [Instr.out m0 d1 d2, .jt m0 m1 d2, .jf m0 m1 d2, .arb m0 d1 d2, .hlt d0 d1 d2] → exec i s = .next t →
    (∀ b, t.mem.read b = s.mem.read b) ∧ t.inQ = s.inQ ∧ t.inClosed = s.inClosed ∧ t.outGone = s.outGone ∧
    (i ≠ .arb m0 d1 d2 → t.rb = s.rb) ∧
    (i ≠ .out m0 d1 d2 → i ≠ .hlt d0 d1 d2 → t.outQ = s.outQ) ∧
    (t.status = s.status ∨ (∃ c, t.status = .faulted c s.pc) ∨ (i = .hlt d0 d1 d2 ∧ t.status = .halted))

/-! ### Other values of the parameters (R13) -/

/-- R302: under any parameters, CapacityExceeded cannot occur with unbounded memory, nor ArithmeticOverflow with wrapping
overflow, so that with both only the four faults of the source remain; this hardware never faults CapacityExceeded (the
spec's own decisions D2 and D10). -/
def Obligations.FaultCodesByConfiguration : Prop :=
  ∀ (s t : State) (c : FaultCode) (fpc : Word), s.status = .running → t.status = .faulted c fpc →
    (step s = .next t → c ≠ .capacityExceeded) ∧
    (∀ cfg : Config, stepIn cfg s = .next t →
      (cfg.memCapacity = none → c ≠ .capacityExceeded) ∧ (cfg.overflow = .wrap → c ≠ .arithmeticOverflow))

/-- R17, R203: a step that does not end in ArithmeticOverflow is the same step under `OVERFLOW_MODE = wrap`; and under wrap,
where their parameters resolve, Add, Multiply and AdjustRelativeBase complete with the exact result `x` taken to
`((x + 2^63) mod 2^64) − 2^63`, inside int64 or not (the spec's own decision D2). -/
def Obligations.WrapAgreesWithoutOverflow : Prop :=
  (∀ s t : State, step s = .next t → (∀ fpc, t.status ≠ .faulted .arithmeticOverflow fpc) →
    stepIn { Config.hw with overflow := .wrap } s = .next t) ∧
  (∀ (m0 m1 m2 : Mode) (s : State) (a : Nat), Ready (.add m0 m1 m2) s → s.target 2 m2 = some a →
    decode (s.mem.read s.pc.toNat) = .ok (.add m0 m1 m2) →
    ∃ r : Word, r.toInt = ((s.operand 0 m0).toInt + (s.operand 1 m1).toInt + 9223372036854775808) % 18446744073709551616 -
        9223372036854775808 ∧
      stepIn { Config.hw with overflow := .wrap } s = .next { s with
        mem := s.mem.write a r
        memLen := grown s.memLen (s.reach (.add m0 m1 m2))
        pc := s.pc + 4#64 }) ∧
  (∀ (m0 m1 m2 : Mode) (s : State) (a : Nat), Ready (.mul m0 m1 m2) s → s.target 2 m2 = some a →
    decode (s.mem.read s.pc.toNat) = .ok (.mul m0 m1 m2) →
    ∃ r : Word, r.toInt = ((s.operand 0 m0).toInt * (s.operand 1 m1).toInt + 9223372036854775808) % 18446744073709551616 -
        9223372036854775808 ∧
      stepIn { Config.hw with overflow := .wrap } s = .next { s with
        mem := s.mem.write a r
        memLen := grown s.memLen (s.reach (.mul m0 m1 m2))
        pc := s.pc + 4#64 }) ∧
  (∀ (m0 : Mode) (d1 d2 : Digit) (s : State), Ready (.arb m0 d1 d2) s →
    decode (s.mem.read s.pc.toNat) = .ok (.arb m0 d1 d2) →
    ∃ r : Word, r.toInt = (s.rb.toInt + (s.operand 0 m0).toInt + 9223372036854775808) % 18446744073709551616 -
        9223372036854775808 ∧
      stepIn { Config.hw with overflow := .wrap } s = .next { s with
        memLen := grown s.memLen (s.reach (.arb m0 d1 d2))
        rb := r
        pc := s.pc + 2#64 })

/-- R231, R290, R307: with a bounded output buffer that is full and a consumer that is there, Output and Halt hold: no state
changes (the spec's own decision D11; that a hold answers the same state is the model's choice, log entry 3). -/
def Obligations.FullBoundedOutputHolds : Prop :=
  ∀ (n : Nat) (i : Instr) (s : State), s.outGone = false → s.outQ.length = n →
    (∃ m0 d1 d2, i = .out m0 d1 d2) ∨ (∃ d0 d1 d2, i = .hlt d0 d1 d2) →
    Ready i s → decode (s.mem.read s.pc.toNat) = .ok i →
    stepIn { Config.hw with outCapacity := some n } s = .next s ∧
    heldIn { Config.hw with outCapacity := some n } s = true

/-- R63, R306: with a finite memory, a fetch at or past its end enters CapacityExceeded before anything is decoded (the
spec's own decisions D10 and D19). -/
def Obligations.FetchPastCapacityFaults : Prop :=
  ∀ (n : Nat) (s : State), s.status = .running → 0 ≤ s.pc.toInt → (n : Int) ≤ s.pc.toInt →
    stepIn { Config.hw with memCapacity := some n } s = .next { s with status := .faulted .capacityExceeded s.pc }

/-- The engine at this hardware's parameters is the machine. -/
def Obligations.MachineIsVariantAtHardware : Prop :=
  ∀ s : State, stepIn Config.hw s = step s

/-! ### 60_exceptions.md: the endpoint controller and networks -/

/-- R331: Send appends at the tail while the producer has not closed. R332: Close sets `in_closed` and keeps what is queued.
R334: Disconnect sets `out_gone` and discards what is queued. R333: Receive takes the head, or tells an ended instance's
driver Disconnected, or waits (the spec's own decisions D25 and D26; that a Send after the Close stops the model is log
entry 6). -/
def Obligations.DriverOperations : Prop :=
  ∀ s : State,
    (∀ v, s.inClosed = false → Driver.send v s = .next { s with inQ := s.inQ ++ [v] }) ∧
    (∀ v, s.inClosed = true → Driver.send v s = .fault .sendAfterClose) ∧
    Driver.close s = { s with inClosed := true } ∧
    Driver.disconnect s = { s with outGone := true, outQ := [] } ∧
    (∀ x rest, s.outQ = x :: rest → Driver.receive s = .item x { s with outQ := rest }) ∧
    (s.outQ = [] → s.status ≠ .running → Driver.receive s = .disconnected) ∧
    (s.outQ = [] → s.status = .running → Driver.receive s = .waits)

/-- The driver's operations keep the invariant. -/
def Obligations.DriverKeepsInvariant : Prop :=
  ∀ s : State, s.Inv →
    (∀ v t, Driver.send v s = .next t → t.Inv) ∧ (Driver.close s).Inv ∧ (Driver.disconnect s).Inv ∧
    (∀ x t, Driver.receive s = .item x t → t.Inv)

/-- R305, R330: a Send never interrupts an instruction: unless the instance is held, stepping and then sending is sending
and then stepping. -/
def Obligations.SendCommutesWithStep : Prop :=
  ∀ (v : Word) (s t u : State), held s = false → step s = .next t → Driver.send v s = .next u →
    ∃ w, step u = .next w ∧ Driver.send v t = .next w

/-- R338: a Send or a Close lifts a hold; a Receive and a Disconnect do not. -/
def Obligations.HoldLiftedBySendOrClose : Prop :=
  ∀ s : State, held s = true →
    (∀ v t, Driver.send v s = .next t → held t = false) ∧ held (Driver.close s) = false ∧
    held (Driver.disconnect s) = true ∧ (∀ x t, Driver.receive s = .item x t → held t = true)

/-- R47: in a network, a move that is not a step of instance `i` itself leaves its memory, `mem_len`, `pc`, `rb` and
`status` as they were, whatever else it does to its queues; and what a step of instance `i` does, and whether it is
enabled, depends on instance `i` alone. (Relays and the driver are no instances; a Receive is told whether the instance has
ended, R333.) -/
def Obligations.InstancesArePrivate : Prop :=
  (∀ (cfg : Config) (m : Move) (n n' : Network) (i : Nat) (s : State), n.move cfg m = some n' → m ≠ .engine i →
    n.instances[i]? = some s →
    ∃ t, n'.instances[i]? = some t ∧ t.mem = s.mem ∧ t.memLen = s.memLen ∧ t.pc = s.pc ∧ t.rb = s.rb ∧
      t.status = s.status) ∧
  (∀ (cfg : Config) (i : Nat) (n m : Network), n.instances[i]? = m.instances[i]? →
    (n.move cfg (.engine i)).bind (fun n' => n'.instances[i]?) =
      (m.move cfg (.engine i)).bind (fun m' => m'.instances[i]?))

/-- R342, R343, R350: what one operation of a relay does. Ready, it receives: a value is carried on and remembered, a halt
sentinel closes the downstream input (or only stops a feedback relay), a disconnection closes it, and otherwise it waits;
what a feedback relay receives is among the items the driver received. Carrying, it sends to its destination, and stays with
its value while that input is closed; closing, it closes the destination's input and stops; stopped, it does nothing. The
relay is the spec's own decision D25; the split into moves, the closing by a feedback relay on a disconnection and the stay
at a closed input are the model's choice, log entry 7. -/
def Obligations.RelayOperations : Prop :=
  ∀ (n : Network) (r : Nat) (x : Relay) (s d : State), n.relays[r]? = some x →
    n.instances[x.src]? = some s → n.instances[x.dst]? = some d →
    (x.phase = .ready →
      (∀ v rest, s.outQ = .value v :: rest → n.relayMove r = some
        { (n.setInstance x.src { s with outQ := rest }).setRelay r { x with phase := .carrying v, last := some v } with
          received := if x.feedback then n.received ++ [(x.src, .value v)] else n.received }) ∧
      (∀ rest, s.outQ = .haltSentinel :: rest → n.relayMove r = some
        { (n.setInstance x.src { s with outQ := rest }).setRelay r
            { x with phase := if x.feedback then .stopped else .closing } with
          received := if x.feedback then n.received ++ [(x.src, .haltSentinel)] else n.received }) ∧
      (s.outQ = [] → s.status ≠ .running → n.relayMove r = some (n.setRelay r { x with phase := .closing })) ∧
      (s.outQ = [] → s.status = .running → n.relayMove r = none)) ∧
    (∀ v, x.phase = .carrying v → d.inClosed = false → n.relayMove r =
      some ((n.setInstance x.dst { d with inQ := d.inQ ++ [v] }).setRelay r { x with phase := .ready })) ∧
    (∀ v, x.phase = .carrying v → d.inClosed = true → n.relayMove r = none) ∧
    (x.phase = .closing → n.relayMove r =
      some ((n.setInstance x.dst { d with inClosed := true }).setRelay r { x with phase := .stopped })) ∧
    (x.phase = .stopped → n.relayMove r = none)
end

