-- ==== Sys2Proof/Laws/Memory.lean ====
section
/-! SUPPORT. The laws of memory: a read after a write, the canonical form and what it gives. -/

namespace Sys2Proof.Machine

@[simp] theorem Memory.read_nil (a : Nat) : Memory.read [] a = 0#64 := rfl

theorem Memory.read_cons (b : Nat) (v : Word) (rest : Memory) (a : Nat) :
    Memory.read ((b, v) :: rest) a = if a = b then v else Memory.read rest a := rfl

/-- A memory that lists no cell at `a` reads 0 there. -/
theorem Memory.read_unlisted {m : Memory} {a : Nat} (h : ∀ c ∈ m, c.1 ≠ a) : m.read a = 0#64 := by
  induction m with
  | nil => rfl
  | cons c rest ih =>
    obtain ⟨b, v⟩ := c
    have hb : b ≠ a := h (b, v) (by simp)
    rw [Memory.read_cons, if_neg (fun e => hb e.symm), ih (fun c hc => h c (by simp [hc]))]

theorem Memory.wf_cons {a : Nat} {v : Word} {rest : Memory} :
    Memory.wf ((a, v) :: rest) = true ↔ v ≠ 0#64 ∧ (∀ c ∈ rest, a < c.1) ∧ rest.wf = true := by
  simp [Memory.wf, and_assoc]

/-- A write leaves every other word as it was, whatever the memory. -/
theorem Memory.read_write_other (m : Memory) {a b : Nat} (v : Word) (h : b ≠ a) :
    (m.write a v).read b = m.read b := by
  induction m with
  | nil => by_cases hv : v = 0#64 <;> simp [Memory.write, Memory.read, hv, h]
  | cons c rest ih =>
    obtain ⟨d, w⟩ := c
    rcases lt_trichotomy a d with hlt | heq | hgt
    · by_cases hv : v = 0#64 <;> simp [Memory.write, Memory.read, hlt, hv, h]
    · subst heq
      by_cases hv : v = 0#64 <;> simp [Memory.write, Memory.read, hv, h]
    · have h1 : ¬ a < d := by omega
      have h2 : a ≠ d := by omega
      simp [Memory.write, Memory.read, h1, h2, ih]

/-- A read of the word just written gives the value written. -/
theorem Memory.read_write_same {m : Memory} (hm : m.wf = true) (a : Nat) (v : Word) :
    (m.write a v).read a = v := by
  induction m with
  | nil => by_cases hv : v = 0#64 <;> simp [Memory.write, Memory.read, hv]
  | cons c rest ih =>
    obtain ⟨d, w⟩ := c
    obtain ⟨hw, habove, hrest⟩ := Memory.wf_cons.mp hm
    rcases lt_trichotomy a d with hlt | heq | hgt
    · by_cases hv : v = 0#64
      · subst hv
        have : Memory.read ((d, w) :: rest) a = 0#64 := Memory.read_unlisted (fun c hc => by
          rcases List.mem_cons.mp hc with rfl | hc
          · exact Nat.ne_of_gt hlt
          · have := habove c hc; omega)
        simpa [Memory.write, hlt] using this
      · simp [Memory.write, Memory.read, hlt, hv]
    · subst heq
      by_cases hv : v = 0#64
      · subst hv
        have : Memory.read rest a = 0#64 := Memory.read_unlisted (fun c hc => by have := habove c hc; omega)
        simpa [Memory.write] using this
      · simp [Memory.write, Memory.read, hv]
    · have h1 : ¬ a < d := by omega
      have h2 : a ≠ d := by omega
      simp [Memory.write, Memory.read, h1, h2, ih hrest]

/-- Every cell of the memory after a write is the written one or was there before. -/
theorem Memory.mem_write {m : Memory} {a : Nat} {v : Word} {c : Nat × Word} (h : c ∈ m.write a v) :
    c.1 = a ∨ c ∈ m := by
  induction m with
  | nil =>
    by_cases hv : v = 0#64 <;> simp [Memory.write, hv] at h
    exact .inl (by rw [h])
  | cons d rest ih =>
    obtain ⟨d, w⟩ := d
    unfold Memory.write at h
    split at h
    · split at h
      · exact .inr h
      · rcases List.mem_cons.mp h with rfl | h
        · exact .inl rfl
        · exact .inr h
    · split at h
      · split at h
        · exact .inr (List.mem_cons_of_mem _ h)
        · rcases List.mem_cons.mp h with rfl | h
          · exact .inl rfl
          · exact .inr (List.mem_cons_of_mem _ h)
      · rcases List.mem_cons.mp h with rfl | h
        · exact .inr (by simp)
        · exact (ih h).imp id (List.mem_cons_of_mem _)

/-- A write keeps the canonical form. -/
theorem Memory.write_wf {m : Memory} (hm : m.wf = true) (a : Nat) (v : Word) : (m.write a v).wf = true := by
  induction m with
  | nil => by_cases hv : v = 0#64 <;> simp [Memory.write, Memory.wf, hv]
  | cons c rest ih =>
    obtain ⟨d, w⟩ := c
    obtain ⟨hw, habove, hrest⟩ := Memory.wf_cons.mp hm
    rcases lt_trichotomy a d with hlt | heq | hgt
    · by_cases hv : v = 0#64
      · simpa [Memory.write, hlt, hv] using hm
      · simp only [Memory.write, hlt, hv, if_true, if_false]
        refine Memory.wf_cons.mpr ⟨hv, fun c hc => ?_, hm⟩
        rcases List.mem_cons.mp hc with rfl | hc
        · exact hlt
        · exact hlt.trans (habove c hc)
    · subst heq
      by_cases hv : v = 0#64
      · simpa [Memory.write, hv] using hrest
      · simp only [Memory.write, lt_irrefl, hv, if_true, if_false]
        exact Memory.wf_cons.mpr ⟨hv, habove, hrest⟩
    · have h1 : ¬ a < d := by omega
      have h2 : a ≠ d := by omega
      simp only [Memory.write, h1, h2, if_false]
      refine Memory.wf_cons.mpr ⟨hw, fun c hc => ?_, ih hrest⟩
      rcases Memory.mem_write hc with h | h
      · omega
      · exact habove c h

/-- The cells of a loaded program lie where the program was placed. -/
theorem Memory.mem_ofWords {ws : List Word} {a : Nat} {c : Nat × Word} (h : c ∈ Memory.ofWords a ws) :
    a ≤ c.1 ∧ c.1 < a + ws.length := by
  induction ws generalizing a with
  | nil => simp [Memory.ofWords] at h
  | cons w ws ih =>
    unfold Memory.ofWords at h
    split at h
    · have := ih h; simp only [List.length_cons]; omega
    · rcases List.mem_cons.mp h with rfl | h
      · simp
      · have := ih h; simp only [List.length_cons]; omega

/-- A loaded program is in canonical form. -/
theorem Memory.ofWords_wf (a : Nat) (ws : List Word) : (Memory.ofWords a ws).wf = true := by
  induction ws generalizing a with
  | nil => rfl
  | cons w ws ih =>
    unfold Memory.ofWords
    split
    · exact ih _
    · next hw =>
      exact Memory.wf_cons.mpr ⟨hw, fun c hc => by have := Memory.mem_ofWords hc; omega, ih _⟩

end Sys2Proof.Machine
end

