-- ==== Sys2Proof/Laws/State.lean ====
section
/-! SUPPORT. One lemma per field per update of the state, each true by unfolding the update. -/

namespace Sys2Proof.Machine

/-! ### `State.setMem` -/

@[simp] theorem State.setMem_mem (s : State) (m : Memory) : (s.setMem m).mem = m := rfl
@[simp] theorem State.setMem_memLen (s : State) (m : Memory) : (s.setMem m).memLen = s.memLen := rfl
@[simp] theorem State.setMem_pc (s : State) (m : Memory) : (s.setMem m).pc = s.pc := rfl
@[simp] theorem State.setMem_rb (s : State) (m : Memory) : (s.setMem m).rb = s.rb := rfl
@[simp] theorem State.setMem_status (s : State) (m : Memory) : (s.setMem m).status = s.status := rfl
@[simp] theorem State.setMem_inQ (s : State) (m : Memory) : (s.setMem m).inQ = s.inQ := rfl
@[simp] theorem State.setMem_inClosed (s : State) (m : Memory) : (s.setMem m).inClosed = s.inClosed := rfl
@[simp] theorem State.setMem_outQ (s : State) (m : Memory) : (s.setMem m).outQ = s.outQ := rfl
@[simp] theorem State.setMem_outGone (s : State) (m : Memory) : (s.setMem m).outGone = s.outGone := rfl

/-! ### `State.setPc` -/

@[simp] theorem State.setPc_mem (s : State) (a : Word) : (s.setPc a).mem = s.mem := rfl
@[simp] theorem State.setPc_memLen (s : State) (a : Word) : (s.setPc a).memLen = s.memLen := rfl
@[simp] theorem State.setPc_pc (s : State) (a : Word) : (s.setPc a).pc = a := rfl
@[simp] theorem State.setPc_rb (s : State) (a : Word) : (s.setPc a).rb = s.rb := rfl
@[simp] theorem State.setPc_status (s : State) (a : Word) : (s.setPc a).status = s.status := rfl
@[simp] theorem State.setPc_inQ (s : State) (a : Word) : (s.setPc a).inQ = s.inQ := rfl
@[simp] theorem State.setPc_inClosed (s : State) (a : Word) : (s.setPc a).inClosed = s.inClosed := rfl
@[simp] theorem State.setPc_outQ (s : State) (a : Word) : (s.setPc a).outQ = s.outQ := rfl
@[simp] theorem State.setPc_outGone (s : State) (a : Word) : (s.setPc a).outGone = s.outGone := rfl

/-! ### `State.setRb` -/

@[simp] theorem State.setRb_mem (s : State) (v : Word) : (s.setRb v).mem = s.mem := rfl
@[simp] theorem State.setRb_memLen (s : State) (v : Word) : (s.setRb v).memLen = s.memLen := rfl
@[simp] theorem State.setRb_pc (s : State) (v : Word) : (s.setRb v).pc = s.pc := rfl
@[simp] theorem State.setRb_rb (s : State) (v : Word) : (s.setRb v).rb = v := rfl
@[simp] theorem State.setRb_status (s : State) (v : Word) : (s.setRb v).status = s.status := rfl
@[simp] theorem State.setRb_inQ (s : State) (v : Word) : (s.setRb v).inQ = s.inQ := rfl
@[simp] theorem State.setRb_inClosed (s : State) (v : Word) : (s.setRb v).inClosed = s.inClosed := rfl
@[simp] theorem State.setRb_outQ (s : State) (v : Word) : (s.setRb v).outQ = s.outQ := rfl
@[simp] theorem State.setRb_outGone (s : State) (v : Word) : (s.setRb v).outGone = s.outGone := rfl

/-! ### `State.setStatus` -/

@[simp] theorem State.setStatus_mem (s : State) (x : Status) : (s.setStatus x).mem = s.mem := rfl
@[simp] theorem State.setStatus_memLen (s : State) (x : Status) : (s.setStatus x).memLen = s.memLen := rfl
@[simp] theorem State.setStatus_pc (s : State) (x : Status) : (s.setStatus x).pc = s.pc := rfl
@[simp] theorem State.setStatus_rb (s : State) (x : Status) : (s.setStatus x).rb = s.rb := rfl
@[simp] theorem State.setStatus_status (s : State) (x : Status) : (s.setStatus x).status = x := rfl
@[simp] theorem State.setStatus_inQ (s : State) (x : Status) : (s.setStatus x).inQ = s.inQ := rfl
@[simp] theorem State.setStatus_inClosed (s : State) (x : Status) : (s.setStatus x).inClosed = s.inClosed := rfl
@[simp] theorem State.setStatus_outQ (s : State) (x : Status) : (s.setStatus x).outQ = s.outQ := rfl
@[simp] theorem State.setStatus_outGone (s : State) (x : Status) : (s.setStatus x).outGone = s.outGone := rfl

/-! ### `State.setInQ` -/

@[simp] theorem State.setInQ_mem (s : State) (q : List Word) : (s.setInQ q).mem = s.mem := rfl
@[simp] theorem State.setInQ_memLen (s : State) (q : List Word) : (s.setInQ q).memLen = s.memLen := rfl
@[simp] theorem State.setInQ_pc (s : State) (q : List Word) : (s.setInQ q).pc = s.pc := rfl
@[simp] theorem State.setInQ_rb (s : State) (q : List Word) : (s.setInQ q).rb = s.rb := rfl
@[simp] theorem State.setInQ_status (s : State) (q : List Word) : (s.setInQ q).status = s.status := rfl
@[simp] theorem State.setInQ_inQ (s : State) (q : List Word) : (s.setInQ q).inQ = q := rfl
@[simp] theorem State.setInQ_inClosed (s : State) (q : List Word) : (s.setInQ q).inClosed = s.inClosed := rfl
@[simp] theorem State.setInQ_outQ (s : State) (q : List Word) : (s.setInQ q).outQ = s.outQ := rfl
@[simp] theorem State.setInQ_outGone (s : State) (q : List Word) : (s.setInQ q).outGone = s.outGone := rfl

/-! ### `State.setOutQ` -/

@[simp] theorem State.setOutQ_mem (s : State) (q : List OutItem) : (s.setOutQ q).mem = s.mem := rfl
@[simp] theorem State.setOutQ_memLen (s : State) (q : List OutItem) : (s.setOutQ q).memLen = s.memLen := rfl
@[simp] theorem State.setOutQ_pc (s : State) (q : List OutItem) : (s.setOutQ q).pc = s.pc := rfl
@[simp] theorem State.setOutQ_rb (s : State) (q : List OutItem) : (s.setOutQ q).rb = s.rb := rfl
@[simp] theorem State.setOutQ_status (s : State) (q : List OutItem) : (s.setOutQ q).status = s.status := rfl
@[simp] theorem State.setOutQ_inQ (s : State) (q : List OutItem) : (s.setOutQ q).inQ = s.inQ := rfl
@[simp] theorem State.setOutQ_inClosed (s : State) (q : List OutItem) : (s.setOutQ q).inClosed = s.inClosed := rfl
@[simp] theorem State.setOutQ_outQ (s : State) (q : List OutItem) : (s.setOutQ q).outQ = q := rfl
@[simp] theorem State.setOutQ_outGone (s : State) (q : List OutItem) : (s.setOutQ q).outGone = s.outGone := rfl

/-! ### `State.touch` -/

@[simp] theorem State.touch_mem (s : State) (a : Nat) : (s.touch a).mem = s.mem := rfl
@[simp] theorem State.touch_memLen (s : State) (a : Nat) : (s.touch a).memLen = if s.memLen ≤ a then a + 1 else s.memLen := rfl
@[simp] theorem State.touch_pc (s : State) (a : Nat) : (s.touch a).pc = s.pc := rfl
@[simp] theorem State.touch_rb (s : State) (a : Nat) : (s.touch a).rb = s.rb := rfl
@[simp] theorem State.touch_status (s : State) (a : Nat) : (s.touch a).status = s.status := rfl
@[simp] theorem State.touch_inQ (s : State) (a : Nat) : (s.touch a).inQ = s.inQ := rfl
@[simp] theorem State.touch_inClosed (s : State) (a : Nat) : (s.touch a).inClosed = s.inClosed := rfl
@[simp] theorem State.touch_outQ (s : State) (a : Nat) : (s.touch a).outQ = s.outQ := rfl
@[simp] theorem State.touch_outGone (s : State) (a : Nat) : (s.touch a).outGone = s.outGone := rfl

/-! ### `State.advance` -/

@[simp] theorem State.advance_mem (s : State) (n : Nat) : (s.advance n).mem = s.mem := rfl
@[simp] theorem State.advance_memLen (s : State) (n : Nat) : (s.advance n).memLen = s.memLen := rfl
@[simp] theorem State.advance_pc (s : State) (n : Nat) : (s.advance n).pc = s.pc + BitVec.ofNat 64 n := rfl
@[simp] theorem State.advance_rb (s : State) (n : Nat) : (s.advance n).rb = s.rb := rfl
@[simp] theorem State.advance_status (s : State) (n : Nat) : (s.advance n).status = s.status := rfl
@[simp] theorem State.advance_inQ (s : State) (n : Nat) : (s.advance n).inQ = s.inQ := rfl
@[simp] theorem State.advance_inClosed (s : State) (n : Nat) : (s.advance n).inClosed = s.inClosed := rfl
@[simp] theorem State.advance_outQ (s : State) (n : Nat) : (s.advance n).outQ = s.outQ := rfl
@[simp] theorem State.advance_outGone (s : State) (n : Nat) : (s.advance n).outGone = s.outGone := rfl

/-! ### `enterFault` -/

@[simp] theorem enterFault_mem (s : State) (c : FaultCode) : (enterFault c s).mem = s.mem := rfl
@[simp] theorem enterFault_memLen (s : State) (c : FaultCode) : (enterFault c s).memLen = s.memLen := rfl
@[simp] theorem enterFault_pc (s : State) (c : FaultCode) : (enterFault c s).pc = s.pc := rfl
@[simp] theorem enterFault_rb (s : State) (c : FaultCode) : (enterFault c s).rb = s.rb := rfl
@[simp] theorem enterFault_status (s : State) (c : FaultCode) : (enterFault c s).status = .faulted c s.pc := rfl
@[simp] theorem enterFault_inQ (s : State) (c : FaultCode) : (enterFault c s).inQ = s.inQ := rfl
@[simp] theorem enterFault_inClosed (s : State) (c : FaultCode) : (enterFault c s).inClosed = s.inClosed := rfl
@[simp] theorem enterFault_outQ (s : State) (c : FaultCode) : (enterFault c s).outQ = s.outQ := rfl
@[simp] theorem enterFault_outGone (s : State) (c : FaultCode) : (enterFault c s).outGone = s.outGone := rfl

/-! ### `Driver.close` -/

@[simp] theorem Driver.close_mem (s : State) : (Driver.close s).mem = s.mem := rfl
@[simp] theorem Driver.close_memLen (s : State) : (Driver.close s).memLen = s.memLen := rfl
@[simp] theorem Driver.close_pc (s : State) : (Driver.close s).pc = s.pc := rfl
@[simp] theorem Driver.close_rb (s : State) : (Driver.close s).rb = s.rb := rfl
@[simp] theorem Driver.close_status (s : State) : (Driver.close s).status = s.status := rfl
@[simp] theorem Driver.close_inQ (s : State) : (Driver.close s).inQ = s.inQ := rfl
@[simp] theorem Driver.close_inClosed (s : State) : (Driver.close s).inClosed = true := rfl
@[simp] theorem Driver.close_outQ (s : State) : (Driver.close s).outQ = s.outQ := rfl
@[simp] theorem Driver.close_outGone (s : State) : (Driver.close s).outGone = s.outGone := rfl

/-! ### `Driver.disconnect` -/

@[simp] theorem Driver.disconnect_mem (s : State) : (Driver.disconnect s).mem = s.mem := rfl
@[simp] theorem Driver.disconnect_memLen (s : State) : (Driver.disconnect s).memLen = s.memLen := rfl
@[simp] theorem Driver.disconnect_pc (s : State) : (Driver.disconnect s).pc = s.pc := rfl
@[simp] theorem Driver.disconnect_rb (s : State) : (Driver.disconnect s).rb = s.rb := rfl
@[simp] theorem Driver.disconnect_status (s : State) : (Driver.disconnect s).status = s.status := rfl
@[simp] theorem Driver.disconnect_inQ (s : State) : (Driver.disconnect s).inQ = s.inQ := rfl
@[simp] theorem Driver.disconnect_inClosed (s : State) : (Driver.disconnect s).inClosed = s.inClosed := rfl
@[simp] theorem Driver.disconnect_outQ (s : State) : (Driver.disconnect s).outQ = [] := rfl
@[simp] theorem Driver.disconnect_outGone (s : State) : (Driver.disconnect s).outGone = true := rfl

end Sys2Proof.Machine
end

