-- ==== Sys2Proof/Laws/Ops.lean ====
section
/-! SUPPORT. One lemma for each shared operation, saying once what it can do: the address checks, MemRead and MemWrite, the
ALU, the endpoint, the outcome of a step, and the resolution of an operand in the closed form of Safety.lean. -/

namespace Sys2Proof.Machine

/-! ### Words and integers -/

theorem word_toNat_eq {a : Word} (h : 0 ≤ a.toInt) : (a.toNat : Int) = a.toInt := by
  have := a.isLt
  rw [BitVec.toInt_eq_toNat_cond] at h ⊢
  split at h <;> split <;> omega

theorem word_toNat_lt {a : Word} (h : 0 ≤ a.toInt) : a.toNat < 9223372036854775808 := by
  have := a.isLt
  rw [BitVec.toInt_eq_toNat_cond] at h
  split at h <;> omega

theorem word_toInt_inInt64 (a : Word) : InInt64 a.toInt := by
  have h1 := BitVec.toInt_lt (x := a)
  have h2 := BitVec.le_toInt (x := a)
  simp only [InInt64, int64Min, int64Max]
  norm_num at h1 h2
  constructor <;> omega

theorem toInt_wordOfInt {x : Int} (h : InInt64 x) : (wordOfInt x).toInt = x := by
  obtain ⟨h1, h2⟩ := h
  simp only [int64Min, int64Max] at h1 h2
  rw [wordOfInt, BitVec.toInt_ofInt, Int.bmod_def]
  norm_num
  split <;> omega

/-- A sum of `pc` and a small offset that stays a word address does not wrap. -/
theorem pc_add_toNat {a : Word} {k : Nat} (h : 0 ≤ a.toInt) (hk : a.toInt + k ≤ int64Max) :
    (a + BitVec.ofNat 64 k).toNat = a.toNat + k := by
  have h1 := word_toNat_eq h
  simp only [int64Max] at hk
  rw [BitVec.toNat_add, BitVec.toNat_ofNat]
  omega

theorem pc_add_toInt {a : Word} {k : Nat} (h : 0 ≤ a.toInt) (hk : a.toInt + k ≤ int64Max) :
    (a + BitVec.ofNat 64 k).toInt = a.toInt + k := by
  have h1 := word_toNat_eq h
  have h2 := pc_add_toNat h hk
  simp only [int64Max] at hk
  rw [BitVec.toInt_eq_toNat_cond, h2]
  split <;> omega

/-- A computation in two parts answers only if both do. -/
theorem bind_ok {ε α β : Type} {x : Except ε α} {f : α → Except ε β} {b : β} (h : (x >>= f) = .ok b) :
    ∃ a, x = .ok a ∧ f a = .ok b := by
  cases x with
  | error e => cases h
  | ok a => exact ⟨a, rfl, h⟩

/-! ### Address checks and memory access -/

theorem checkAddress_neg {a : Word} (cfg : Config) (h : a.toInt < 0) : checkAddress cfg a = .error .invalidAddress := by
  simp [checkAddress, h]

theorem checkAddress_hw {a : Word} (h : 0 ≤ a.toInt) : checkAddress Config.hw a = .ok () := by
  have h' : ¬ a.toInt < 0 := by omega
  simp [checkAddress, h', Config.hw]

/-- MemRead on this hardware: it reads the cell and grows memory, at every address that is not negative. -/
theorem memRead_hw {a : Word} (h : 0 ≤ a.toInt) (s : State) :
    memRead Config.hw a s = .ok (s.mem.read a.toNat, s.touch a.toNat) := by
  simp [memRead, checkAddress_hw h]

theorem memRead_neg {a : Word} (cfg : Config) (h : a.toInt < 0) (s : State) :
    memRead cfg a s = .error .invalidAddress := by
  simp [memRead, checkAddress_neg cfg h]

/-- If MemRead answers, it is the cell's word, and only `mem_len` has grown. -/
theorem memRead_ok {cfg : Config} {a : Word} {s : State} {r : Word × State} (h : memRead cfg a s = .ok r) :
    0 ≤ a.toInt ∧ r = (s.mem.read a.toNat, s.touch a.toNat) := by
  by_cases hneg : a.toInt < 0
  · rw [memRead_neg cfg hneg] at h; cases h
  · unfold memRead at h
    split at h
    · cases h
    · cases h; exact ⟨by omega, rfl⟩

/-- MemWrite on this hardware. -/
theorem memWrite_hw {a : Word} (h : 0 ≤ a.toInt) (v : Word) (s : State) :
    memWrite Config.hw a v s = .ok ((s.touch a.toNat).setMem (s.mem.write a.toNat v)) := by
  simp [memWrite, checkAddress_hw h]

theorem memWrite_ok {cfg : Config} {a v : Word} {s t : State} (h : memWrite cfg a v s = .ok t) :
    0 ≤ a.toInt ∧ t = (s.touch a.toNat).setMem (s.mem.write a.toNat v) := by
  by_cases hneg : a.toInt < 0
  · simp [memWrite, checkAddress_neg cfg hneg] at h
  · unfold memWrite at h
    split at h
    · cases h
    · cases h; exact ⟨by omega, rfl⟩

/-! ### The ALU -/

theorem alu_in {cfg : Config} {x : Int} (h : InInt64 x) : alu cfg x = .ok (wordOfInt x) := by
  simp only [alu, if_pos h]

theorem alu_hw_out {x : Int} (h : ¬ InInt64 x) : alu Config.hw x = .error .arithmeticOverflow := by
  simp only [alu, if_neg h, Config.hw]

/-- If the trapping ALU answers, the result is exact. -/
theorem alu_hw_ok {x : Int} {r : Word} (h : alu Config.hw x = .ok r) : InInt64 x ∧ r = wordOfInt x := by
  by_cases hx : InInt64 x
  · rw [alu_in hx] at h; cases h; exact ⟨hx, rfl⟩
  · rw [alu_hw_out hx] at h; cases h

/-! ### The output endpoint and the outcome of a step -/

theorem offerOutput_gone {cfg : Config} {item : OutItem} {s : State} (h : s.outGone = true) :
    offerOutput cfg item s = some s := by
  simp [offerOutput, h]

/-- On this hardware the output never holds. -/
theorem offerOutput_hw {item : OutItem} {s : State} (h : s.outGone = false) :
    offerOutput Config.hw item s = some (s.setOutQ (s.outQ ++ [item])) := by
  simp [offerOutput, h, Config.hw]

theorem settle_next (s : State) (e : Except FaultCode (Option State)) : ∃ t, settle s e = .next t := by
  unfold settle
  split
  · exact ⟨_, rfl⟩
  · exact ⟨_, rfl⟩
  · exact ⟨_, rfl⟩

/-- What a step can become: a fault entered from the beginning, a hold, or the effect. -/
theorem settle_cases {s t : State} {e : Except FaultCode (Option State)} (h : settle s e = .next t) :
    (∃ c, e = .error c ∧ t = enterFault c s) ∨ (e = .ok none ∧ t = s) ∨ e = .ok (some t) := by
  unfold settle at h
  split at h
  · cases h; exact .inl ⟨_, rfl, rfl⟩
  · cases h; exact .inr (.inl ⟨rfl, rfl⟩)
  · cases h; exact .inr (.inr rfl)

theorem step_running {s : State} (h : s.status = .running) : step s = settle s (stepEffect Config.hw s) := by
  unfold step stepEffect
  rw [h]
  cases fetchDecode Config.hw s with
  | error c => rfl
  | ok i => cases i <;> rfl

theorem step_ended {s : State} (h : s.status ≠ .running) : step s = .next s := by
  unfold step
  split
  · contradiction
  · rfl
  · rfl

theorem stepIn_running {cfg : Config} {s : State} (h : s.status = .running) :
    stepIn cfg s = settle s (stepEffect cfg s) := by
  unfold stepIn
  rw [h]

/-- An instruction is its effect, settled. -/
theorem exec_eq (i : Instr) (s : State) : exec i s = settle s (instrEffect Config.hw i s) := by
  cases i <;> rfl

/-- Any step is a settled effect or, after the end, nothing. -/
theorem step_cases {s t : State} (h : step s = .next t) :
    (s.status = .running ∧ ∃ c, stepEffect Config.hw s = .error c ∧ t = enterFault c s) ∨ t = s ∨
      (s.status = .running ∧ stepEffect Config.hw s = .ok (some t)) := by
  by_cases hr : s.status = .running
  · rw [step_running hr] at h
    rcases settle_cases h with ⟨c, h1, h2⟩ | ⟨_, h2⟩ | h2
    · exact .inl ⟨hr, c, h1, h2⟩
    · exact .inr (.inl h2)
    · exact .inr (.inr ⟨hr, h2⟩)
  · rw [step_ended hr] at h
    cases h; exact .inr (.inl rfl)

/-! ### Growth -/

/-- `t` is `s` but for a `mem_len` that has not shrunk and stays within the address space. -/
def Grew (s t : State) : Prop :=
  t = { s with memLen := t.memLen } ∧ s.memLen ≤ t.memLen ∧ (s.memLen ≤ 9223372036854775808 → t.memLen ≤ 9223372036854775808)

theorem Grew.refl (s : State) : Grew s s := ⟨rfl, le_refl _, id⟩

theorem Grew.mem {s t : State} (h : Grew s t) : t.mem = s.mem := by rw [h.1]
theorem Grew.pc {s t : State} (h : Grew s t) : t.pc = s.pc := by rw [h.1]
theorem Grew.rb {s t : State} (h : Grew s t) : t.rb = s.rb := by rw [h.1]
theorem Grew.status {s t : State} (h : Grew s t) : t.status = s.status := by rw [h.1]
theorem Grew.inQ {s t : State} (h : Grew s t) : t.inQ = s.inQ := by rw [h.1]
theorem Grew.inClosed {s t : State} (h : Grew s t) : t.inClosed = s.inClosed := by rw [h.1]
theorem Grew.outQ {s t : State} (h : Grew s t) : t.outQ = s.outQ := by rw [h.1]
theorem Grew.outGone {s t : State} (h : Grew s t) : t.outGone = s.outGone := by rw [h.1]

theorem Grew.trans {s t u : State} (h1 : Grew s t) (h2 : Grew t u) : Grew s u :=
  ⟨by rw [h2.1, h1.1], h1.2.1.trans h2.2.1, fun h => h2.2.2 (h1.2.2 h)⟩

theorem touch_grew (s : State) {a : Nat} (ha : a < 9223372036854775808) : Grew s (s.touch a) := by
  refine ⟨rfl, ?_, fun h => ?_⟩ <;> simp only [State.touch_memLen] <;> split <;> omega

theorem memRead_grew {cfg : Config} {a : Word} {s : State} {r : Word × State} (h : memRead cfg a s = .ok r) :
    Grew s r.2 := by
  obtain ⟨ha, rfl⟩ := memRead_ok h
  exact touch_grew s (word_toNat_lt ha)

theorem openStep_ok {cfg : Config} {n : Nat} {s t : State} (h : openStep cfg n s = .ok t) :
    Grew s t ∧ 0 ≤ s.pc.toInt ∧ (1 ≤ n → s.pc.toInt + 1 + n ≤ int64Max) := by
  unfold openStep at h
  split at h
  · cases h
  · next hr =>
    split at h
    · cases h
    · next hn =>
      cases h
      exact ⟨memRead_grew hr, (memRead_ok hr).1, fun h1 => by by_contra hc; exact hn ⟨h1, by omega⟩⟩

theorem paramWord_grew {cfg : Config} {k : Nat} {s : State} {r : Word × State} (h : paramWord cfg k s = .ok r) :
    Grew s r.2 := memRead_grew h

theorem operandValue_grew {cfg : Config} {m : Mode} {p : Word} {s : State} {r : Word × State}
    (h : operandValue cfg m p s = .ok r) : Grew s r.2 := by
  unfold operandValue at h
  split at h
  · exact memRead_grew h
  · cases h; exact Grew.refl s
  · split at h
    · cases h
    · exact memRead_grew h

theorem readOperand_grew {cfg : Config} {k : Nat} {m : Mode} {s : State} {r : Word × State}
    (h : readOperand cfg k m s = .ok r) : Grew s r.2 := by
  unfold readOperand at h
  split at h
  · cases h
  · next hp =>
    have g := paramWord_grew hp
    exact g.trans (operandValue_grew h)

theorem writeOperand_grew {cfg : Config} {k : Nat} {m : Mode} {s : State} {r : Word × State}
    (h : writeOperand cfg k m s = .ok r) : Grew s r.2 := by
  unfold writeOperand at h
  split at h
  · cases h
  · next hp =>
    split at h
    · cases h
    · have g := paramWord_grew hp
      cases h; exact g

/-! ### The shapes of an instruction, inverted -/

/-- If a three-operand instruction answers, it advances past its four words having written one result. -/
theorem threeOperand_ok {cfg : Config} {result : Word → Word → Except FaultCode Word} {m0 m1 m2 : Mode} {s : State}
    {o : Option State} (h : threeOperand cfg result m0 m1 m2 s = .ok o) :
    ∃ (a b t r : Word) (u : State), Grew s u ∧ result a b = .ok r ∧ 0 ≤ t.toInt ∧ s.pc.toInt + 1 + 3 ≤ int64Max ∧ 0 ≤ s.pc.toInt ∧
      o = some (((u.touch t.toNat).setMem (s.mem.write t.toNat r)).advance 4) := by
  unfold threeOperand at h
  obtain ⟨s0, h0, h⟩ := bind_ok h
  obtain ⟨r1, h1, h⟩ := bind_ok h
  obtain ⟨r2, h2, h⟩ := bind_ok h
  obtain ⟨r3, h3, h⟩ := bind_ok h
  obtain ⟨r, hr, h⟩ := bind_ok h
  obtain ⟨s4, h4, h⟩ := bind_ok h
  obtain ⟨g0, hpc, hb⟩ := openStep_ok h0
  have g := ((g0.trans (readOperand_grew h1)).trans (readOperand_grew h2)).trans (writeOperand_grew h3)
  obtain ⟨ht, rfl⟩ := memWrite_ok h4
  cases h
  exact ⟨_, _, _, r, _, g, hr, ht, hb (by decide), hpc, by rw [g.mem]⟩

/-- If a conditional jump answers, it has gone to a target that is not negative, or past its three words. -/
theorem conditionalJump_ok {cfg : Config} {taken : Word → Bool} {m0 m1 : Mode} {s : State} {o : Option State}
    (h : conditionalJump cfg taken m0 m1 s = .ok o) :
    ∃ (c t : Word) (u : State), Grew s u ∧ s.pc.toInt + 1 + 2 ≤ int64Max ∧ 0 ≤ s.pc.toInt ∧
      ((taken c = true ∧ 0 ≤ t.toInt ∧ o = some (u.setPc t)) ∨ (taken c = false ∧ o = some (u.advance 3))) := by
  unfold conditionalJump at h
  obtain ⟨s0, h0, h⟩ := bind_ok h
  obtain ⟨r1, h1, h⟩ := bind_ok h
  obtain ⟨r2, h2, h⟩ := bind_ok h
  obtain ⟨g0, hpc, hb⟩ := openStep_ok h0
  have g := (g0.trans (readOperand_grew h1)).trans (readOperand_grew h2)
  refine ⟨r1.1, r2.1, r2.2, g, hb (by decide), hpc, ?_⟩
  dsimp only at h
  split at h
  · next ht =>
    split at h
    · cases h
    · cases h; exact .inl ⟨ht, by omega, rfl⟩
  · next ht => cases h; exact .inr ⟨by simpa using ht, rfl⟩

/-- If Input answers, it has taken the head of the queue into memory, or it holds on an empty open queue. -/
theorem inEffect_ok {cfg : Config} {m0 : Mode} {s : State} {o : Option State} (h : inEffect cfg m0 s = .ok o) :
    ∃ (t : Word) (u : State), Grew s u ∧ s.pc.toInt + 1 + 1 ≤ int64Max ∧ 0 ≤ s.pc.toInt ∧
      ((∃ v rest, s.inQ = v :: rest ∧ 0 ≤ t.toInt ∧
          o = some ((((u.setInQ rest).touch t.toNat).setMem (s.mem.write t.toNat v)).advance 2)) ∨
        (s.inQ = [] ∧ s.inClosed = false ∧ o = none)) := by
  unfold inEffect at h
  obtain ⟨s0, h0, h⟩ := bind_ok h
  obtain ⟨r1, h1, h⟩ := bind_ok h
  obtain ⟨g0, hpc, hb⟩ := openStep_ok h0
  have g := g0.trans (writeOperand_grew h1)
  refine ⟨r1.1, r1.2, g, hb (by decide), hpc, ?_⟩
  dsimp only at h
  split at h
  · next v rest hq =>
    obtain ⟨s2, h2, h⟩ := bind_ok h
    obtain ⟨ht, rfl⟩ := memWrite_ok h2
    cases h
    exact .inl ⟨v, rest, by rw [← g.inQ, hq], ht, by rw [State.setInQ_mem, g.mem]⟩
  · next hq =>
    split at h
    · cases h
    · next hc => cases h; exact .inr ⟨by rw [← g.inQ, hq], by rw [← g.inClosed]; simpa using hc, rfl⟩

/-- What offering an item to the output leaves. -/
theorem offerOutput_some {cfg : Config} {item : OutItem} {s t : State} (h : offerOutput cfg item s = some t) :
    (s.outGone = true ∧ t = s) ∨ (s.outGone = false ∧ t = s.setOutQ (s.outQ ++ [item])) := by
  unfold offerOutput at h
  split at h
  · next hg => cases h; exact .inl ⟨hg, rfl⟩
  · next hg =>
    split at h
    · cases h
    · cases h; exact .inr ⟨by simpa using hg, rfl⟩

/-- If Output answers, it has read a value and offered it; it holds where the offer holds. -/
theorem outEffect_ok {cfg : Config} {m0 : Mode} {s : State} {o : Option State} (h : outEffect cfg m0 s = .ok o) :
    ∃ (v : Word) (u : State), Grew s u ∧ s.pc.toInt + 1 + 1 ≤ int64Max ∧ 0 ≤ s.pc.toInt ∧
      o = (offerOutput cfg (.value v) u).map (fun t => t.advance 2) := by
  unfold outEffect at h
  obtain ⟨s0, h0, h⟩ := bind_ok h
  obtain ⟨r1, h1, h⟩ := bind_ok h
  obtain ⟨g0, hpc, hb⟩ := openStep_ok h0
  cases h
  exact ⟨r1.1, r1.2, g0.trans (readOperand_grew h1), hb (by decide), hpc, rfl⟩

/-- If AdjustRelativeBase answers, it has added a value to the relative base. -/
theorem arbEffect_ok {cfg : Config} {m0 : Mode} {s : State} {o : Option State} (h : arbEffect cfg m0 s = .ok o) :
    ∃ (v r : Word) (u : State), Grew s u ∧ s.pc.toInt + 1 + 1 ≤ int64Max ∧ 0 ≤ s.pc.toInt ∧
      alu cfg (s.rb.toInt + v.toInt) = .ok r ∧ o = some ((u.setRb r).advance 2) := by
  unfold arbEffect at h
  obtain ⟨s0, h0, h⟩ := bind_ok h
  obtain ⟨r1, h1, h⟩ := bind_ok h
  obtain ⟨r, hr, h⟩ := bind_ok h
  obtain ⟨g0, hpc, hb⟩ := openStep_ok h0
  have g := g0.trans (readOperand_grew h1)
  cases h
  rw [g.rb] at hr
  exact ⟨r1.1, r, r1.2, g, hb (by decide), hpc, hr, rfl⟩

/-- If Halt answers, it has offered the sentinel and halted; it holds where the offer holds. -/
theorem hltEffect_ok {cfg : Config} {s : State} {o : Option State} (h : hltEffect cfg s = .ok o) :
    ∃ u : State, Grew s u ∧ 0 ≤ s.pc.toInt ∧
      o = (offerOutput cfg .haltSentinel u).map (fun t => t.setStatus .halted) := by
  unfold hltEffect at h
  obtain ⟨s0, h0, h⟩ := bind_ok h
  obtain ⟨g0, hpc, -⟩ := openStep_ok h0
  cases h
  exact ⟨s0, g0, hpc, rfl⟩

end Sys2Proof.Machine
end

