-- ==== Sys2Proof/Laws/Congruence.lean ====
section
/-! SUPPORT. Two states that agree on what the engine reads step alike: one congruence, used for what a program cannot
observe and for a value sent while the engine steps. -/

namespace Sys2Proof.Machine

section

/-- A relation on states that every effect on this hardware keeps: it fixes memory and the registers, and is kept by each
update a step is made of (Input's look at the queue apart). -/
structure EffectCongruence (R : State → State → Prop) : Prop where
  mem : ∀ {s t}, R s t → s.mem = t.mem
  pc : ∀ {s t}, R s t → s.pc = t.pc
  rb : ∀ {s t}, R s t → s.rb = t.rb
  touch : ∀ {s t} a, R s t → R (s.touch a) (t.touch a)
  setMem : ∀ {s t} a, R s t → R (s.setMem a) (t.setMem a)
  setPc : ∀ {s t} a, R s t → R (s.setPc a) (t.setPc a)
  setRb : ∀ {s t} a, R s t → R (s.setRb a) (t.setRb a)
  setStatus : ∀ {s t} a, R s t → R (s.setStatus a) (t.setStatus a)
  offer : ∀ {s t} x, R s t → ∃ s' t', offerOutput Config.hw x s = some s' ∧ offerOutput Config.hw x t = some t' ∧
      R s' t'

/-- The same fault, or related answers. -/
inductive SameOutcome {α : Type} (R : α → α → Prop) : Except FaultCode α → Except FaultCode α → Prop
  | err c : SameOutcome R (.error c) (.error c)
  | ok {a b} : R a b → SameOutcome R (.ok a) (.ok b)

/-- Both hold, or related states. -/
inductive SameOption (R : State → State → Prop) : Option State → Option State → Prop
  | none : SameOption R none none
  | some {a b} : R a b → SameOption R (some a) (some b)

theorem SameOutcome.bind {α β : Type} {R : α → α → Prop} {Q : β → β → Prop} {x y : Except FaultCode α} {f g : α →
    Except FaultCode β} (h : SameOutcome R x y) (hf : ∀ a b, R a b → SameOutcome Q (f a) (g b)) :
        SameOutcome Q (x >>= f) (y >>= g) := by
  cases h with
  | err c => exact .err c
  | ok h => exact hf _ _ h

/-- The same word, with related states. -/
def SameValue (R : State → State → Prop) (p q : Word × State) : Prop := p.1 = q.1 ∧ R p.2 q.2

variable {R : State → State → Prop} (C : EffectCongruence R)
include C

theorem memRead_same {s t} (a) (h : R s t) : SameOutcome (SameValue R) (memRead Config.hw a s)
    (memRead Config.hw a t) := by
  unfold memRead
  split
  · exact .err _
  · exact .ok ⟨by rw [C.mem h], C.touch _ h⟩

theorem memWrite_same {s t} (a v) (h : R s t) : SameOutcome R (memWrite Config.hw a v s)
    (memWrite Config.hw a v t) := by
  unfold memWrite
  split
  · exact .err _
  · refine .ok ?_
    rw [C.mem h]; exact C.setMem _ (C.touch _ h)

theorem openStep_same {s t} (n) (h : R s t) : SameOutcome R (openStep Config.hw n s) (openStep Config.hw n t) := by
  unfold openStep
  rw [← C.pc h]
  have := memRead_same C s.pc h
  generalize memRead Config.hw s.pc s = x at *
  generalize memRead Config.hw s.pc t = y at *
  cases this with
  | err c => exact .err c
  | ok h => dsimp only; split; exact .err _; exact .ok h.2

theorem paramWord_same {s t} (k) (h : R s t) : SameOutcome (SameValue R) (paramWord Config.hw k s)
    (paramWord Config.hw k t) := by
  unfold paramWord; rw [← C.pc h]; exact memRead_same C _ h

theorem readOperand_same {s t} (k m) (h : R s t) : SameOutcome (SameValue R) (readOperand Config.hw k m s)
    (readOperand Config.hw k m t) := by
  unfold readOperand
  have := paramWord_same C k h
  generalize paramWord Config.hw k s = x at *
  generalize paramWord Config.hw k t = y at *
  cases this with
  | err c => exact .err c
  | @ok a b h =>
    obtain ⟨p, s1⟩ := a; obtain ⟨q, t1⟩ := b
    obtain ⟨e, h⟩ := h
    dsimp only at e h ⊢
    subst e
    cases m with
    | position => exact memRead_same C _ h
    | immediate => exact .ok ⟨rfl, h⟩
    | relative =>
      simp only [operandValue, relativeAddress]
      rw [C.rb h]
      split
      · exact .err _
      · exact memRead_same C _ h

theorem writeOperand_same {s t} (k m) (h : R s t) : SameOutcome (SameValue R) (writeOperand Config.hw k m s)
    (writeOperand Config.hw k m t) := by
  unfold writeOperand
  have := paramWord_same C k h
  generalize paramWord Config.hw k s = x at *
  generalize paramWord Config.hw k t = y at *
  cases this with
  | err c => exact .err c
  | @ok a b h =>
    obtain ⟨p, s1⟩ := a; obtain ⟨q, t1⟩ := b
    obtain ⟨e, h⟩ := h
    dsimp only at e h ⊢
    subst e
    have : operandTarget Config.hw m p s1 = operandTarget Config.hw m p t1 := by
      cases m <;> simp only [operandTarget, relativeAddress, C.rb h]
    rw [this]
    split
    · exact .err _
    · exact .ok ⟨rfl, h⟩

theorem advance_same {s t} (n) (h : R s t) : R (s.advance n) (t.advance n) := by
  unfold State.advance; rw [C.pc h]; exact C.setPc _ h

theorem threeOperand_same {s t} (r m0 m1 m2) (h : R s t) : SameOutcome (SameOption R)
    (threeOperand Config.hw r m0 m1 m2 s) (threeOperand Config.hw r m0 m1 m2 t) := by
  unfold threeOperand
  refine (openStep_same C _ h).bind fun _ _ h => (readOperand_same C _ _ h).bind fun a b h => ?_
  obtain ⟨a, _⟩ := a; obtain ⟨b, _⟩ := b; obtain ⟨e, h⟩ := h; dsimp only at e h ⊢; subst e
  refine (readOperand_same C _ _ h).bind fun a b h => ?_
  obtain ⟨a, _⟩ := a; obtain ⟨b, _⟩ := b; obtain ⟨e, h⟩ := h; dsimp only at e h ⊢; subst e
  refine (writeOperand_same C _ _ h).bind fun a b h => ?_
  obtain ⟨a, _⟩ := a; obtain ⟨b, _⟩ := b; obtain ⟨e, h⟩ := h; dsimp only at e h ⊢; subst e
  refine SameOutcome.bind (R := Eq) (by generalize r _ _ = x; cases x; exact .err _; exact .ok rfl) fun a b e => ?_
  subst e
  refine (memWrite_same C _ _ h).bind fun a b h => .ok (.some (advance_same C _ h))

theorem conditionalJump_same {s t} (tk m0 m1) (h : R s t) : SameOutcome (SameOption R)
    (conditionalJump Config.hw tk m0 m1 s) (conditionalJump Config.hw tk m0 m1 t) := by
  unfold conditionalJump
  refine (openStep_same C _ h).bind fun _ _ h => (readOperand_same C _ _ h).bind fun a b h => ?_
  obtain ⟨a, _⟩ := a; obtain ⟨b, _⟩ := b; obtain ⟨e, h⟩ := h; dsimp only at e h ⊢; subst e
  refine (readOperand_same C _ _ h).bind fun a b h => ?_
  obtain ⟨a, _⟩ := a; obtain ⟨b, _⟩ := b; obtain ⟨e, h⟩ := h; dsimp only at e h ⊢; subst e
  split
  · split
    · exact .err _
    · exact .ok (.some (C.setPc _ h))
  · exact .ok (.some (advance_same C _ h))

/-- Related states have related effects, if Input does. -/
theorem instrEffect_same {s t} (i) (h : R s t) (hin : ∀ m0 d1 d2, i = .inp m0 d1 d2 → SameOutcome (SameOption R)
    (inEffect Config.hw m0 s) (inEffect Config.hw m0 t)) :
   SameOutcome (SameOption R) (instrEffect Config.hw i s) (instrEffect Config.hw i t) := by
  cases i <;> simp only [instrEffect, addEffect, mulEffect, ltEffect, eqEffect, jtEffect, jfEffect, outEffect,
      arbEffect, hltEffect]
  · exact threeOperand_same C _ _ _ _ h
  · exact threeOperand_same C _ _ _ _ h
  · exact hin _ _ _ rfl
  · refine (openStep_same C _ h).bind fun _ _ h => (readOperand_same C _ _ h).bind fun a b h => ?_
    obtain ⟨a, _⟩ := a; obtain ⟨b, _⟩ := b; obtain ⟨e, h⟩ := h; dsimp only at e h ⊢; subst e
    obtain ⟨s', t', e1, e2, h⟩ := C.offer (.value a) h
    rw [e1, e2]; exact .ok (.some (advance_same C _ h))
  · exact conditionalJump_same C _ _ _ h
  · exact conditionalJump_same C _ _ _ h
  · exact threeOperand_same C _ _ _ _ h
  · exact threeOperand_same C _ _ _ _ h
  · refine (openStep_same C _ h).bind fun _ _ h => (readOperand_same C _ _ h).bind fun a b h => ?_
    obtain ⟨a, s1⟩ := a; obtain ⟨b, t1⟩ := b; obtain ⟨e, h⟩ := h; dsimp only at e h ⊢; subst e
    rw [C.rb h]
    refine SameOutcome.bind (R := Eq) (by generalize alu _ _ = x; cases x; exact .err _; exact .ok rfl) fun a b e => ?_
    subst e
    exact .ok (.some (advance_same C _ (C.setRb _ h)))
  · refine (openStep_same C _ h).bind fun _ _ h => ?_
    obtain ⟨s', t', e1, e2, h⟩ := C.offer .haltSentinel h
    rw [e1, e2]; exact .ok (.some (C.setStatus _ h))

theorem fetchDecode_same {s t} (h : R s t) : fetchDecode Config.hw s = fetchDecode Config.hw t := by
  unfold fetchDecode
  have := memRead_same C s.pc h
  rw [← C.pc h]
  generalize memRead Config.hw s.pc s = x at *
  generalize memRead Config.hw s.pc t = y at *
  cases this with
  | err c => rfl
  | @ok a b h => obtain ⟨a, _⟩ := a; obtain ⟨b, _⟩ := b; obtain ⟨e, h⟩ := h; dsimp only at e ⊢; rw [e]

/-- Related states have related steps, if Input does. -/
theorem stepEffect_same {s t} (h : R s t) (hin : ∀ m0 d1 d2, fetchDecode Config.hw s = .ok (.inp m0 d1 d2) →
    SameOutcome (SameOption R) (inEffect Config.hw m0 s) (inEffect Config.hw m0 t)) :
   SameOutcome (SameOption R) (stepEffect Config.hw s) (stepEffect Config.hw t) := by
  unfold stepEffect
  rw [← fetchDecode_same C h]
  split
  · exact .err _
  · next i hi => exact instrEffect_same C i h (fun m0 d1 d2 e => hin m0 d1 d2 (by rw [hi, e]))

end

end Sys2Proof.Machine
end

