-- ==== Sys2Proof/Laws/Operands.lean ====
section
/-! SUPPORT. Operand resolution on this hardware in the closed form of Safety.lean: from a state that differs from the
step's first one by its `mem_len` alone, each resolution faults with `paramFault`, or gives `operand` or `target` and grows
memory to `paramReach`. -/

namespace Sys2Proof.Machine

/-! ### Growth in closed form -/

theorem grown_nil (n : Nat) : grown n [] = n := rfl
theorem grown_cons (n a : Nat) (l : List Nat) : grown n (a :: l) = grown (if n ≤ a then a + 1 else n) l := rfl
theorem grown_append (n : Nat) (l k : List Nat) : grown n (l ++ k) = grown (grown n l) k := List.foldl_append

theorem touch_withLen (s : State) (n a : Nat) :
    ({ s with memLen := n } : State).touch a = { s with memLen := grown n [a] } := rfl

/-! ### The beginning of a step -/

theorem openStep_ready {s : State} {n : Nat} (hpc : 0 ≤ s.pc.toInt) (hb : 1 ≤ n → s.pc.toInt + 1 + n ≤ int64Max) :
    openStep Config.hw n s = .ok { s with memLen := grown s.memLen [s.pc.toNat] } := by
  unfold openStep
  rw [memRead_hw hpc]
  dsimp only
  rw [if_neg (by intro h; have := hb h.1; omega)]
  rfl

theorem openStep_bound {s : State} {n : Nat} (hpc : 0 ≤ s.pc.toInt) (hn : 1 ≤ n)
    (hb : int64Max < s.pc.toInt + 1 + n) : openStep Config.hw n s = .error .invalidAddress := by
  unfold openStep
  rw [memRead_hw hpc]
  dsimp only
  rw [if_pos ⟨hn, hb⟩]

/-! ### One parameter -/

theorem paramWord_ready {s : State} {k n : Nat} (hpc : 0 ≤ s.pc.toInt) (hb : s.pc.toInt + 1 + k ≤ int64Max) :
    paramWord Config.hw k { s with memLen := n } =
      .ok (s.param k, { s with memLen := grown n [s.pc.toNat + (1 + k)] }) := by
  have hk : s.pc.toInt + ((1 + k : Nat) : Int) ≤ int64Max := by push_cast; omega
  have hnat := pc_add_toNat hpc hk
  have hint := pc_add_toInt hpc hk
  unfold paramWord
  rw [memRead_hw (by dsimp only; omega)]
  dsimp only
  rw [hnat]
  rfl

theorem relativeAddress_hw (p : Word) (s : State) : relativeAddress Config.hw p s = alu Config.hw (s.rb.toInt + p.toInt) :=
  rfl

theorem paramFault_relative (s : State) (k : Nat) (kind : ParamKind) :
    s.paramFault k kind .relative =
      if InInt64 (s.rb.toInt + (s.param k).toInt) then
        if s.rb.toInt + (s.param k).toInt < 0 then some .invalidAddress else none
      else some .arithmeticOverflow := rfl

/-- A read parameter faults with `paramFault`, or gives `operand` and grows memory to `paramReach`. -/
theorem readOperand_ready {s : State} {k n : Nat} (m : Mode) (hpc : 0 ≤ s.pc.toInt)
    (hb : s.pc.toInt + 1 + k ≤ int64Max) :
    readOperand Config.hw k m { s with memLen := n } =
      match s.paramFault k .read m with
      | some c => .error c
      | none => .ok (s.operand k m, { s with memLen := grown n (s.paramReach k m) }) := by
  unfold readOperand
  rw [paramWord_ready hpc hb]
  cases m with
  | position =>
    by_cases h : (s.param k).toInt < 0
    · simp [operandValue, State.paramFault, h, memRead_neg]
    · have h' : 0 ≤ (s.param k).toInt := by omega
      have hn : (s.param k).toInt.toNat = (s.param k).toNat := by have := word_toNat_eq h'; omega
      simp [operandValue, State.paramFault, h, memRead_hw h', State.operand, State.paramAddress, State.paramReach,
        touch_withLen, grown_cons, grown_nil, hn]
  | immediate => simp [operandValue, State.paramFault, State.operand, State.paramAddress, State.paramReach]
  | relative =>
    rw [paramFault_relative]
    by_cases hin : InInt64 (s.rb.toInt + (s.param k).toInt)
    · have hw := toInt_wordOfInt hin
      rw [if_pos hin]
      simp only [operandValue, relativeAddress_hw, alu_in hin]
      by_cases h : s.rb.toInt + (s.param k).toInt < 0
      · rw [if_pos h, memRead_neg _ (by rw [hw]; exact h)]
      · have h' : 0 ≤ (wordOfInt (s.rb.toInt + (s.param k).toInt)).toInt := by omega
        have hn : (s.rb.toInt + (s.param k).toInt).toNat = (wordOfInt (s.rb.toInt + (s.param k).toInt)).toNat := by
          have := word_toNat_eq h'; omega
        rw [if_neg h, memRead_hw h']
        simp [State.operand, State.paramAddress, State.paramReach, touch_withLen, grown_cons, grown_nil, hn]
    · rw [if_neg hin]
      simp only [operandValue, relativeAddress_hw, alu_hw_out hin]

/-- A write parameter faults with `paramFault`, or gives a word address that is `target`; it reads its own word only. -/
theorem writeOperand_ready {s : State} {k n : Nat} (m : Mode) (hpc : 0 ≤ s.pc.toInt)
    (hb : s.pc.toInt + 1 + k ≤ int64Max) :
    (∃ c, s.paramFault k .write m = some c ∧ writeOperand Config.hw k m { s with memLen := n } = .error c) ∨
      ∃ t : Word, s.paramFault k .write m = none ∧ 0 ≤ t.toInt ∧ s.target k m = some t.toNat ∧
        s.paramReach k m = [s.pc.toNat + (1 + k), t.toNat] ∧
        writeOperand Config.hw k m { s with memLen := n } =
          .ok (t, { s with memLen := grown n [s.pc.toNat + (1 + k)] }) := by
  unfold writeOperand
  rw [paramWord_ready hpc hb]
  cases m with
  | position =>
    by_cases h : (s.param k).toInt < 0
    · exact .inl ⟨.invalidAddress, by simp [State.paramFault, h], by simp [operandTarget, checkAddress_neg _ h]⟩
    · have h' : 0 ≤ (s.param k).toInt := by omega
      have hn : (s.param k).toInt.toNat = (s.param k).toNat := by have := word_toNat_eq h'; omega
      exact .inr ⟨s.param k, by simp [State.paramFault, h], h', by simp [State.target, State.paramAddress, hn],
        by simp [State.paramReach, State.paramAddress, hn], by simp [operandTarget, checkAddress_hw h']⟩
  | immediate => exact .inl ⟨.invalidAddressingMode, rfl, rfl⟩
  | relative =>
    rw [paramFault_relative]
    by_cases hin : InInt64 (s.rb.toInt + (s.param k).toInt)
    · have hw := toInt_wordOfInt hin
      rw [if_pos hin]
      simp only [operandTarget, relativeAddress_hw, alu_in hin]
      by_cases h : s.rb.toInt + (s.param k).toInt < 0
      · exact .inl ⟨.invalidAddress, if_pos h, by rw [checkAddress_neg _ (by rw [hw]; exact h)]⟩
      · have h' : 0 ≤ (wordOfInt (s.rb.toInt + (s.param k).toInt)).toInt := by omega
        have hn : (s.rb.toInt + (s.param k).toInt).toNat = (wordOfInt (s.rb.toInt + (s.param k).toInt)).toNat := by
          have := word_toNat_eq h'; omega
        exact .inr ⟨wordOfInt (s.rb.toInt + (s.param k).toInt), if_neg h, h',
          by simp [State.target, State.paramAddress, hn], by simp [State.paramReach, State.paramAddress, hn],
          by rw [checkAddress_hw h']⟩
    · exact .inl ⟨.arithmeticOverflow, if_neg hin, by simp only [operandTarget, relativeAddress_hw, alu_hw_out hin]⟩

/-! ### The shapes of an instruction -/

theorem firstFault_cons (s : State) (k : Nat) (kind : ParamKind) (m : Mode) (rest : List (ParamKind × Mode)) :
    s.firstFault k ((kind, m) :: rest) =
      match s.paramFault k kind m with
      | some c => some c
      | none => s.firstFault (k + 1) rest := rfl

/-- A three-operand instruction on this hardware, from a state where its four words and the next address are word
addresses: the first fault of its parameters, else the fault of its result, else the result written to the target. -/
theorem threeOperand_ready (result : Word → Word → Except FaultCode Word) {m0 m1 m2 : Mode} {s : State}
    (hpc : 0 ≤ s.pc.toInt) (hb : s.pc.toInt + 1 + 3 ≤ int64Max) :
    (∃ c, s.firstFault 0 [(.read, m0), (.read, m1), (.write, m2)] = some c ∧
        threeOperand Config.hw result m0 m1 m2 s = .error c) ∨
      ∃ a : Nat, s.firstFault 0 [(.read, m0), (.read, m1), (.write, m2)] = none ∧ s.target 2 m2 = some a ∧
        threeOperand Config.hw result m0 m1 m2 s =
          match result (s.operand 0 m0) (s.operand 1 m1) with
          | .error c => .error c
          | .ok r => .ok (some { s with
              mem := s.mem.write a r
              memLen := grown s.memLen (s.pc.toNat :: s.paramsReach 0 [(.read, m0), (.read, m1), (.write, m2)])
              pc := s.pc + 4#64 }) := by
  simp only [threeOperand, bind, Except.bind, pure, Except.pure, State.firstFault, State.paramsReach, Nat.zero_add,
    Nat.reduceAdd]
  rw [openStep_ready hpc (fun _ => hb)]
  dsimp only
  rw [readOperand_ready m0 hpc (by push_cast; omega)]
  cases h0 : s.paramFault 0 .read m0 with
  | some c => exact .inl ⟨c, rfl, rfl⟩
  | none =>
    dsimp only
    rw [readOperand_ready m1 hpc (by push_cast; omega)]
    cases h1 : s.paramFault 1 .read m1 with
    | some c => exact .inl ⟨c, rfl, rfl⟩
    | none =>
      dsimp only
      rcases writeOperand_ready (n := grown (grown (grown s.memLen [s.pc.toNat]) (s.paramReach 0 m0)) (s.paramReach 1 m1))
        m2 hpc (k := 2) (by push_cast; omega) with ⟨c, h2, hw⟩ | ⟨t, h2, ht, htgt, hreach, hw⟩
      · exact .inl ⟨c, by rw [h2], by rw [hw]⟩
      · refine .inr ⟨t.toNat, by rw [h2], htgt, ?_⟩
        rw [hw]
        dsimp only
        cases hr : result (s.operand 0 m0) (s.operand 1 m1) with
        | error c => rfl
        | ok r =>
          dsimp only
          rw [memWrite_hw ht, hreach]
          simp only [State.advance, State.setMem, State.setPc, touch_withLen, grown_cons, grown_append, grown_nil,
            List.append_nil]

/-- A conditional jump on this hardware. -/
theorem conditionalJump_ready (taken : Word → Bool) {m0 m1 : Mode} {s : State}
    (hpc : 0 ≤ s.pc.toInt) (hb : s.pc.toInt + 1 + 2 ≤ int64Max) :
    (∃ c, s.firstFault 0 [(.read, m0), (.read, m1)] = some c ∧ conditionalJump Config.hw taken m0 m1 s = .error c) ∨
      (s.firstFault 0 [(.read, m0), (.read, m1)] = none ∧
        conditionalJump Config.hw taken m0 m1 s =
          if taken (s.operand 0 m0) = true then
            if (s.operand 1 m1).toInt < 0 then .error .invalidAddress
            else .ok (some { s with
              memLen := grown s.memLen (s.pc.toNat :: s.paramsReach 0 [(.read, m0), (.read, m1)])
              pc := s.operand 1 m1 })
          else .ok (some { s with
            memLen := grown s.memLen (s.pc.toNat :: s.paramsReach 0 [(.read, m0), (.read, m1)])
            pc := s.pc + 3#64 })) := by
  simp only [conditionalJump, bind, Except.bind, pure, Except.pure, State.firstFault, State.paramsReach, Nat.zero_add]
  rw [openStep_ready hpc (fun _ => hb)]
  dsimp only
  rw [readOperand_ready m0 hpc (by push_cast; omega)]
  cases h0 : s.paramFault 0 .read m0 with
  | some c => exact .inl ⟨c, rfl, rfl⟩
  | none =>
    dsimp only
    rw [readOperand_ready m1 hpc (by push_cast; omega)]
    cases h1 : s.paramFault 1 .read m1 with
    | some c => exact .inl ⟨c, rfl, rfl⟩
    | none =>
      refine .inr ⟨rfl, ?_⟩
      simp only [State.advance, State.setPc, grown_cons, grown_append, grown_nil, List.append_nil]
      rfl

/-- One read parameter after the beginning of a step. -/
theorem oneRead_ready {m0 : Mode} {s : State} (hpc : 0 ≤ s.pc.toInt) (hb : s.pc.toInt + 1 + 1 ≤ int64Max) :
    openStep Config.hw 1 s = .ok { s with memLen := grown s.memLen [s.pc.toNat] } ∧
      readOperand Config.hw 0 m0 { s with memLen := grown s.memLen [s.pc.toNat] } =
        match s.firstFault 0 [(.read, m0)] with
        | some c => .error c
        | none => .ok (s.operand 0 m0,
            { s with memLen := grown s.memLen (s.pc.toNat :: s.paramsReach 0 [(.read, m0)]) }) := by
  refine ⟨openStep_ready hpc (fun _ => hb), ?_⟩
  rw [readOperand_ready m0 hpc (by push_cast; omega)]
  simp only [State.firstFault, State.paramsReach, List.append_nil, grown_cons, grown_nil]
  cases s.paramFault 0 .read m0 <;> rfl

end Sys2Proof.Machine
end

