-- ==== Sys2Proof/Laws/Effect.lean ====
section
/-! SUPPORT. What a whole instruction and a whole step do, for any configuration: how a step reaches its instruction, what
any effect leaves (`EffectFrame`), and which fault codes can arise (`CodeAllowed`). -/

namespace Sys2Proof.Machine

/-! ### From a step to its instruction -/

/-- A run of one more step is the step and then the run. -/
theorem core_run_succ (k : Nat) (s : State) : core.run (k+1) s =
    (match step s with | .next s' => core.run k s' | .fault r => .fault r | .refused r => .refused r) := by
  refine (Host.Core.run.eq_2 core s k).trans ?_
  rw [show core.step s = step s from rfl]
  cases step s <;> rfl

/-- On this hardware a fetch from a word address decodes the word that is there. -/
theorem fetchDecode_hw {s : State} (h : 0 ≤ s.pc.toInt) : fetchDecode Config.hw s = decode (s.mem.read s.pc.toNat) := by
  unfold fetchDecode; rw [memRead_hw h]; rfl

/-- If a step has an effect, the word at `pc` decodes and the effect is that instruction's. -/
theorem stepEffect_ok {cfg s t} (h : stepEffect cfg s = .ok t) : ∃ i w, 0 ≤ s.pc.toInt ∧ w =
    s.mem.read s.pc.toNat ∧ decodeIn cfg w = .ok i ∧ instrEffect cfg i s = .ok t := by
  unfold stepEffect fetchDecode at h
  split at h
  · cases h
  next i hi =>
  split at hi
  · cases hi
  next w u hr =>
  obtain ⟨h0, he⟩ := memRead_ok hr
  cases he
  exact ⟨i, _, h0, rfl, hi, h⟩

theorem bind_error {ε α β : Type} {x : Except ε α} {f : α → Except ε β} {c : ε} (h : (x >>= f) = .error c) :
    x = .error c ∨ ∃ a, x = .ok a ∧ f a = .error c := by
  cases x with
  | error e => cases h; exact .inl rfl
  | ok a => exact .inr ⟨a, rfl, h⟩

/-! ### Words placed from outside -/

theorem placeWord_pc (a v s) : (placeWord a v s).pc = s.pc := by unfold placeWord; split <;> rfl

theorem placeWord_status (a v s) : (placeWord a v s).status = s.status := by unfold placeWord; split <;> rfl

theorem placeWord_read (a v s b) (h : b < a) : (placeWord a v s).mem.read b = s.mem.read b := by
  unfold placeWord; split
  · rw [State.setMem_mem, Memory.read_write_other _ _ (by omega)]
  · rfl

theorem storeWords_pc : ∀ n a w s, (storeWords n a w s).pc = s.pc := by
  intro n; induction n with
  | zero => intros; rfl
  | succ n ih => intro a w s; unfold storeWords; rw [ih, placeWord_pc]

theorem storeWords_status : ∀ n a w s, (storeWords n a w s).status = s.status := by
  intro n; induction n with
  | zero => intros; rfl
  | succ n ih => intro a w s; unfold storeWords; rw [ih, placeWord_status]

theorem storeWords_read : ∀ n a w s b, b < a → (storeWords n a w s).mem.read b = s.mem.read b := by
  intro n; induction n with
  | zero => intros; rfl
  | succ n ih => intro a w s b hb; unfold storeWords; rw [ih _ _ _ _ (by omega), placeWord_read _ _ _ _ hb]

/-! ### What any effect leaves -/

theorem le_touch_memLen (s : State) (a : Nat) : s.memLen ≤ (s.touch a).memLen := by
  simp only [State.touch_memLen]; split <;> omega

theorem lt_touch_memLen (s : State) (a : Nat) : a < (s.touch a).memLen := by
  simp only [State.touch_memLen]; split <;> omega

theorem touch_memLen_le (s : State) {a : Nat} (h : a < 9223372036854775808) : s.memLen ≤ 9223372036854775808 →
    (s.touch a).memLen ≤ 9223372036854775808 := by
  intro h2; simp only [State.touch_memLen]; split <;> omega

/-- No effect shrinks memory. -/
theorem instrEffect_memLen_le {cfg i s t} (h : instrEffect cfg i s = .ok (some t)) : s.memLen ≤ t.memLen := by
  have h3 : ∀ {res : Word → Word → Except FaultCode Word} {m0 m1 m2}, threeOperand cfg res m0 m1 m2 s =
      .ok (some t) → s.memLen ≤ t.memLen := by
    intro res m0 m1 m2 h
    obtain ⟨a, b, w, r, u, g, -, -, -, -, h⟩ := threeOperand_ok h
    cases h
    exact g.2.1.trans (le_touch_memLen u w.toNat)
  have h2 : ∀ {tk m0 m1}, conditionalJump cfg tk m0 m1 s = .ok (some t) → s.memLen ≤ t.memLen := by
    intro tk m0 m1 h
    obtain ⟨c, w, u, g, -, -, ⟨-, -, h⟩ | ⟨-, h⟩⟩ := conditionalJump_ok h <;> cases h <;> exact g.2.1
  have ho : ∀ {item u}, Grew s u → ∀ {f : State → State}, (∀ x, (f x).memLen = x.memLen) → some t =
      (offerOutput cfg item u).map f → s.memLen ≤ t.memLen := by
    intro item u g f hf h
    obtain ⟨x, hx, rfl⟩ := Option.map_eq_some_iff.mp h.symm
    rw [hf]
    rcases offerOutput_some hx with ⟨-, rfl⟩ | ⟨-, rfl⟩ <;> exact g.2.1
  cases i <;> simp only [instrEffect] at h
  · exact h3 h
  · exact h3 h
  · obtain ⟨w, u, g, -, -, ⟨v, rest, -, -, h⟩ | ⟨-, -, h⟩⟩ := inEffect_ok h <;> cases h
    exact g.2.1.trans (le_touch_memLen (u.setInQ rest) w.toNat)
  · obtain ⟨v, u, g, -, -, h⟩ := outEffect_ok h
    exact ho g (f := fun t => t.advance 2) (fun _ => rfl) h
  · exact h2 h
  · exact h2 h
  · exact h3 h
  · exact h3 h
  · obtain ⟨v, r, u, g, -, -, -, h⟩ := arbEffect_ok h; cases h; exact g.2.1
  · obtain ⟨u, g, -, h⟩ := hltEffect_ok h
    exact ho g (f := fun t => t.setStatus .halted) (fun _ => rfl) h

/-- What every effect of an instruction keeps and what it may change. -/
structure EffectFrame (cfg : Config) (i : Instr) (s t : State) : Prop where
  inClosed : t.inClosed = s.inClosed
  outGone : t.outGone = s.outGone
  mem : t.mem = s.mem ∨ ∃ (a : Word) (v : Word), 0 ≤ a.toInt ∧ a.toNat < t.memLen ∧ t.mem = s.mem.write a.toNat v
  pc : 0 ≤ t.pc.toInt
  rb : t.rb = s.rb ∨ ∃ m d1 d2, i = .arb m d1 d2
  inQ : t.inQ = s.inQ ∨ ∃ v, s.inQ = v :: t.inQ
  outQ : t.outQ = s.outQ ∨ (∃ v, s.outGone = false ∧ t.outQ = s.outQ ++ [.value v]) ∨ (s.outGone = false ∧
      t.status = .halted ∧ t.outQ = s.outQ ++ [.haltSentinel])
  status : t.status = s.status ∨ (t.status = .halted ∧ ∃ d0 d1 d2, i = .hlt d0 d1 d2)
  memLen : s.memLen ≤ t.memLen
  memLenBound : s.memLen ≤ 9223372036854775808 → t.memLen ≤ 9223372036854775808

/-- Every effect has the frame. -/
theorem instrEffect_frame {cfg i s t} (h : instrEffect cfg i s = .ok (some t)) : EffectFrame cfg i s t := by
  have hlen := instrEffect_memLen_le h
  have adv : ∀ {n : Nat} (k : Nat), k ≤ n + 1 → 0 ≤ s.pc.toInt → s.pc.toInt + 1 + n ≤ int64Max →
      0 ≤ (s.pc + BitVec.ofNat 64 k).toInt := by
    intro n k hk h0 hb; rw [pc_add_toInt h0 (by omega)]; omega
  have h3 : ∀ {res : Word → Word → Except FaultCode Word} {m0 m1 m2}, threeOperand cfg res m0 m1 m2 s =
      .ok (some t) → EffectFrame cfg i s t := by
    intro res m0 m1 m2 h
    obtain ⟨a, b, w, r, u, g, -, h1, h2, h0, h⟩ := threeOperand_ok h
    cases h
    refine ⟨g.inClosed, g.outGone, .inr ⟨w, r, h1, lt_touch_memLen _ _, rfl⟩, ?_, .inl g.rb, .inl g.inQ,
        .inl g.outQ, .inl g.status, hlen, fun h => touch_memLen_le u (word_toNat_lt h1) (g.2.2 h)⟩
    show 0 ≤ (u.pc + BitVec.ofNat 64 4).toInt
    rw [g.pc]; exact adv (n := 3) 4 (by omega) h0 (by omega)
  have h2 : ∀ {tk m0 m1}, conditionalJump cfg tk m0 m1 s = .ok (some t) → EffectFrame cfg i s t := by
    intro tk m0 m1 h
    obtain ⟨c, w, u, g, hb, h0, ⟨-, hw, h⟩ | ⟨-, h⟩⟩ := conditionalJump_ok h <;> cases h
    · exact ⟨g.inClosed, g.outGone, .inl g.mem, hw, .inl g.rb, .inl g.inQ, .inl g.outQ, .inl g.status, hlen, g.2.2⟩
    · refine ⟨g.inClosed, g.outGone, .inl g.mem, ?_, .inl g.rb, .inl g.inQ, .inl g.outQ, .inl g.status, hlen, g.2.2⟩
      show 0 ≤ (u.pc + BitVec.ofNat 64 3).toInt
      rw [g.pc]; exact adv (n := 2) 3 (by omega) h0 (by omega)
  cases i <;> simp only [instrEffect] at h
  · exact h3 h
  · exact h3 h
  · obtain ⟨w, u, g, hb, h0, ⟨v, rest, hq, hw, h⟩ | ⟨-, -, h⟩⟩ := inEffect_ok h <;> cases h
    refine ⟨g.inClosed, g.outGone, .inr ⟨w, v, hw, lt_touch_memLen _ _, rfl⟩, ?_, .inl g.rb, .inr ⟨v, hq⟩,
        .inl g.outQ, .inl g.status, hlen, fun h => touch_memLen_le u (word_toNat_lt hw) (g.2.2 h)⟩
    show 0 ≤ (u.pc + BitVec.ofNat 64 2).toInt
    rw [g.pc]; exact adv (n := 1) 2 (by omega) h0 (by omega)
  · obtain ⟨v, u, g, hb, h0, h⟩ := outEffect_ok h
    obtain ⟨x, hx, rfl⟩ := Option.map_eq_some_iff.mp h.symm
    have hp : 0 ≤ (s.pc + BitVec.ofNat 64 2).toInt := adv (n := 1) 2 (by omega) h0 (by omega)
    rcases offerOutput_some hx with ⟨hg, rfl⟩ | ⟨hg, rfl⟩
    · exact ⟨g.inClosed, g.outGone, .inl g.mem, by show 0 ≤ (x.pc + BitVec.ofNat 64 2).toInt; rw [g.pc]; exact hp,
          .inl g.rb, .inl g.inQ, .inl g.outQ, .inl g.status, hlen, g.2.2⟩
    · refine ⟨g.inClosed, g.outGone, .inl g.mem, by show 0 ≤ (u.pc + BitVec.ofNat 64 2).toInt; rw [g.pc]; exact hp,
          .inl g.rb, .inl g.inQ, .inr (.inl ⟨v, by rw [← g.outGone, hg], ?_⟩), .inl g.status, hlen, g.2.2⟩
      show u.outQ ++ _ = _; rw [g.outQ]
  · exact h2 h
  · exact h2 h
  · exact h3 h
  · exact h3 h
  · obtain ⟨v, r, u, g, hb, h0, -, h⟩ := arbEffect_ok h; cases h
    refine ⟨g.inClosed, g.outGone, .inl g.mem, ?_, .inr ⟨_, _, _, rfl⟩, .inl g.inQ, .inl g.outQ, .inl g.status,
        hlen, g.2.2⟩
    show 0 ≤ (u.pc + BitVec.ofNat 64 2).toInt
    rw [g.pc]; exact adv (n := 1) 2 (by omega) h0 (by omega)
  · obtain ⟨u, g, h0, h⟩ := hltEffect_ok h
    obtain ⟨x, hx, rfl⟩ := Option.map_eq_some_iff.mp h.symm
    rcases offerOutput_some hx with ⟨hg, rfl⟩ | ⟨hg, rfl⟩
    · exact ⟨g.inClosed, g.outGone, .inl g.mem, by show 0 ≤ x.pc.toInt; rw [g.pc]; exact h0, .inl g.rb, .inl g.inQ,
          .inl g.outQ, .inr ⟨rfl, _, _, _, rfl⟩, hlen, g.2.2⟩
    · refine ⟨g.inClosed, g.outGone, .inl g.mem, by show 0 ≤ u.pc.toInt; rw [g.pc]; exact h0, .inl g.rb,
          .inl g.inQ, .inr (.inr ⟨by rw [← g.outGone, hg], rfl, ?_⟩), .inr ⟨rfl, _, _, _, rfl⟩, hlen, g.2.2⟩
      show u.outQ ++ _ = _; rw [g.outQ]

/-! ### Which fault codes can arise -/

/-- A fault code that a configuration leaves possible (R302). -/
def CodeAllowed (cfg : Config) (c : FaultCode) : Prop := (cfg.memCapacity = none → c ≠ .capacityExceeded) ∧
    (cfg.overflow = .wrap → c ≠ .arithmeticOverflow)

theorem checkAddress_error {cfg a c} (h : checkAddress cfg a = .error c) : CodeAllowed cfg c := by
  unfold checkAddress at h
  split at h
  · cases h; exact ⟨fun _ => by decide, fun _ => by decide⟩
  split at h
  · cases h
  · next hn =>
    split at h
    · cases h; exact ⟨fun h => (by rw [hn] at h; cases h), fun _ => by decide⟩
    · cases h

theorem memRead_error {cfg a s c} (h : memRead cfg a s = .error c) : CodeAllowed cfg c := by
  unfold memRead at h; split at h
  · next h' => cases h; exact checkAddress_error h'
  · cases h

theorem memWrite_error {cfg a v s c} (h : memWrite cfg a v s = .error c) : CodeAllowed cfg c := by
  unfold memWrite at h; split at h
  · next h' => cases h; exact checkAddress_error h'
  · cases h

theorem alu_error {cfg x c} (h : alu cfg x = .error c) : CodeAllowed cfg c := by
  unfold alu at h; split at h
  · cases h
  · split at h
    · next h' => cases h; exact ⟨fun _ => by decide, fun h => by rw [h'] at h; cases h⟩
    · cases h

theorem operandValue_error {cfg m p s c} (h : operandValue cfg m p s = .error c) : CodeAllowed cfg c := by
  unfold operandValue at h; split at h
  · exact memRead_error h
  · cases h
  · split at h
    · next h' => cases h; exact alu_error h'
    · exact memRead_error h

theorem readOperand_error {cfg k m s c} (h : readOperand cfg k m s = .error c) : CodeAllowed cfg c := by
  unfold readOperand at h; split at h
  · next h' => cases h; exact memRead_error h'
  · exact operandValue_error h

theorem operandTarget_error {cfg m p s c} (h : operandTarget cfg m p s = .error c) : CodeAllowed cfg c := by
  unfold operandTarget at h
  dsimp only at h
  split at h
  · next h' =>
    cases h
    cases m
    · cases h'
    · cases h'; exact ⟨fun _ => by decide, fun _ => by decide⟩
    · exact alu_error h'
  · split at h
    · next h' => cases h; exact checkAddress_error h'
    · cases h

theorem writeOperand_error {cfg k m s c} (h : writeOperand cfg k m s = .error c) : CodeAllowed cfg c := by
  unfold writeOperand at h; split at h
  · next h' => cases h; exact memRead_error h'
  · split at h
    · next h' => cases h; exact operandTarget_error h'
    · cases h

theorem openStep_error {cfg n s c} (h : openStep cfg n s = .error c) : CodeAllowed cfg c := by
  unfold openStep at h; split at h
  · next h' => cases h; exact memRead_error h'
  · split at h
    · cases h; exact ⟨fun _ => by decide, fun _ => by decide⟩
    · cases h

theorem instrEffect_error {cfg i s c} (h : instrEffect cfg i s = .error c) : CodeAllowed cfg c := by
  have other : ∀ c, c ≠ .capacityExceeded → c ≠ .arithmeticOverflow →
      CodeAllowed cfg c := fun c h1 h2 => ⟨fun _ => h1, fun _ => h2⟩
  have h3 : ∀ {res : Word → Word → Except FaultCode Word} {m0 m1 m2}, (∀ a b c, res a b = .error c →
      CodeAllowed cfg c) → threeOperand cfg res m0 m1 m2 s = .error c → CodeAllowed cfg c := by
    intro res m0 m1 m2 hres h
    unfold threeOperand at h
    rcases bind_error h with h | ⟨_, _, h⟩; · exact openStep_error h
    rcases bind_error h with h | ⟨_, _, h⟩; · exact readOperand_error h
    rcases bind_error h with h | ⟨_, _, h⟩; · exact readOperand_error h
    rcases bind_error h with h | ⟨_, _, h⟩; · exact writeOperand_error h
    rcases bind_error h with h | ⟨_, _, h⟩; · exact hres _ _ _ h
    rcases bind_error h with h | ⟨_, _, h⟩; · exact memWrite_error h
    cases h
  have h2 : ∀ {tk m0 m1}, conditionalJump cfg tk m0 m1 s = .error c → CodeAllowed cfg c := by
    intro tk m0 m1 h
    unfold conditionalJump at h
    rcases bind_error h with h | ⟨_, _, h⟩; · exact openStep_error h
    rcases bind_error h with h | ⟨_, _, h⟩; · exact readOperand_error h
    rcases bind_error h with h | ⟨_, _, h⟩; · exact readOperand_error h
    dsimp only at h
    split at h
    · split at h
      · cases h; exact other _ (by decide) (by decide)
      · cases h
    · cases h
  cases i <;> simp only [instrEffect] at h
  · exact h3 (fun _ _ _ h => alu_error h) h
  · exact h3 (fun _ _ _ h => alu_error h) h
  · unfold inEffect at h
    rcases bind_error h with h | ⟨_, _, h⟩; · exact openStep_error h
    rcases bind_error h with h | ⟨_, _, h⟩; · exact writeOperand_error h
    dsimp only at h
    split at h
    · rcases bind_error h with h | ⟨_, _, h⟩; · exact memWrite_error h
      cases h
    · split at h
      · cases h; exact other _ (by decide) (by decide)
      · cases h
  · unfold outEffect at h
    rcases bind_error h with h | ⟨_, _, h⟩; · exact openStep_error h
    rcases bind_error h with h | ⟨_, _, h⟩; · exact readOperand_error h
    cases h
  · exact h2 h
  · exact h2 h
  · exact h3 (fun _ _ _ h => by cases h) h
  · exact h3 (fun _ _ _ h => by cases h) h
  · unfold arbEffect at h
    rcases bind_error h with h | ⟨_, _, h⟩; · exact openStep_error h
    rcases bind_error h with h | ⟨_, _, h⟩; · exact readOperand_error h
    rcases bind_error h with h | ⟨_, _, h⟩; · exact alu_error h
    cases h
  · unfold hltEffect at h
    rcases bind_error h with h | ⟨_, _, h⟩; · exact openStep_error h
    cases h

theorem decodeIn_error {cfg w c} (h : decodeIn cfg w = .error c) : c = .invalidOpcode ∨ c = .invalidAddressingMode := by
  unfold decodeIn at h
  split at h
  · cases h; exact .inl rfl
  split at h
  · cases h; exact .inl rfl
  next hb =>
  split at h
  · cases h; exact .inr rfl
  unfold decodeOpcode at hb
  split at hb <;> cases hb <;>
   ( simp only [decodeRRW, decodeRR, decodeR, decodeW, decodeNone] at h
     repeat' split at h
     all_goals (cases h; try exact .inr rfl))

theorem stepEffect_error {cfg s c} (h : stepEffect cfg s = .error c) : CodeAllowed cfg c := by
  unfold stepEffect fetchDecode at h
  split at h
  · next h' =>
    cases h
    split at h'
    · next h'' => cases h'; exact memRead_error h''
    · rcases decodeIn_error h' with rfl | rfl <;> exact ⟨fun _ => by decide, fun _ => by decide⟩
  · exact instrEffect_error h

/-! ### Input, Output and AdjustRelativeBase on this hardware -/

/-- Input on this hardware: the fault of its parameter, else what it does with the queue. -/
theorem inEffect_ready {m0 s} (h2 : 0 ≤ s.pc.toInt) (h3 : s.pc.toInt + 1 + 1 ≤ int64Max) :
   (∃ c, s.firstFault 0 [(.write, m0)] = some c ∧ inEffect Config.hw m0 s = .error c) ∨
   (∃ a, s.firstFault 0 [(.write, m0)] = none ∧ s.target 0 m0 = some a ∧ inEffect Config.hw m0 s = match s.inQ with
     | v :: rest => .ok (some { s with
         mem := s.mem.write a v
         memLen := grown s.memLen (s.pc.toNat :: s.paramsReach 0 [(.write, m0)])
         inQ := rest
         pc := s.pc + 2#64 })
     | [] => if s.inClosed then .error .inputExhausted else .ok none) := by
  unfold inEffect
  simp only [bind, Except.bind, pure, Except.pure, State.firstFault, State.paramsReach]
  rw [openStep_ready h2 (fun _ => h3)]
  dsimp only
  rcases writeOperand_ready (n := grown s.memLen [s.pc.toNat]) m0 h2 (k := 0) (by push_cast; omega) with ⟨c, e,
      hw⟩ | ⟨t, e, ht, htgt, hreach, hw⟩
  · exact .inl ⟨c, by rw [e], by rw [hw]⟩
  · refine .inr ⟨t.toNat, by rw [e], htgt, ?_⟩
    rw [hw]
    dsimp only
    cases hq : s.inQ with
    | nil => rfl
    | cons v rest =>
      dsimp only
      rw [memWrite_hw ht, hreach]
      rfl

/-- A resolved single read parameter. -/
theorem oneRead_of_ready {i m0 s} (hp : paramsOf i = [(.read, m0)]) (h : Ready i s) :
    openStep Config.hw 1 s = .ok { s with memLen := grown s.memLen [s.pc.toNat] } ∧
      readOperand Config.hw 0 m0 { s with memLen := grown s.memLen [s.pc.toNat] } = .ok (s.operand 0 m0,
          { s with memLen := grown s.memLen (s.reach i) }) := by
  obtain ⟨h1, h2, h3, h4⟩ := h
  rw [hp] at h3 h4
  have := oneRead_ready h2 (h3 (by simp)) (m0 := m0)
  rw [h4] at this
  rw [State.reach, hp]
  exact this

/-- Output under any buffer bound, its parameter resolved. -/
theorem outEffect_ready {cfg : Config} {m0 d1 d2 s} (hm : cfg.memCapacity = none) (ho : cfg.overflow = .trap) (h :
    Ready (.out m0 d1 d2) s) :
   outEffect cfg m0 s = .ok ((offerOutput cfg (.value (s.operand 0 m0))
       { s with memLen := grown s.memLen (s.reach (.out m0 d1 d2)) }).map (fun t => t.advance 2)) := by
  obtain ⟨e1, e2⟩ := oneRead_of_ready rfl h
  have hc : ∀ a, checkAddress cfg a = checkAddress Config.hw a := by intro a; simp [checkAddress, hm, Config.hw]
  have hmr : ∀ a s, memRead cfg a s = memRead Config.hw a s := by intro a s; simp [memRead, hc]
  have hal : ∀ x, alu cfg x = alu Config.hw x := by intro x; simp [alu, ho, Config.hw]
  have e1' : openStep cfg 1 s = openStep Config.hw 1 s := by simp [openStep, hmr]
  have e2' : ∀ s, readOperand cfg 0 m0 s = readOperand Config.hw 0 m0 s := by intro s; simp [readOperand,
      paramWord, operandValue, relativeAddress, hmr, hal]
  unfold outEffect
  rw [e1', e1]
  simp only [bind, Except.bind, pure, Except.pure, e2', e2]

/-- AdjustRelativeBase on this hardware, its parameter resolved. -/
theorem arbEffect_ready {m0 d1 d2 s} (h : Ready (.arb m0 d1 d2) s) : arbEffect Config.hw m0 s =
    match alu Config.hw (s.rb.toInt + (s.operand 0 m0).toInt) with
   | .ok r => .ok (some { s with memLen := grown s.memLen (s.reach (.arb m0 d1 d2)), rb := r, pc := s.pc + 2#64 })
   | .error c => .error c := by
  obtain ⟨e1, e2⟩ := oneRead_of_ready rfl h
  unfold arbEffect
  rw [e1]
  simp only [bind, Except.bind, pure, Except.pure, e2]
  cases alu Config.hw (s.rb.toInt + (s.operand 0 m0).toInt) <;> rfl

end Sys2Proof.Machine
end

