-- ==== Sys2Proof/Laws/Network.lean ====
section
/-! SUPPORT. The laws of a network's updates, and that no move rewires it (R78). -/

namespace Sys2Proof.Machine

@[simp] theorem Network.setInstance_instances (n : Network) (i : Nat) (s : State) :
    (n.setInstance i s).instances = n.instances.set i s := rfl
@[simp] theorem Network.setInstance_relays (n : Network) (i : Nat) (s : State) :
    (n.setInstance i s).relays = n.relays := rfl
@[simp] theorem Network.setInstance_received (n : Network) (i : Nat) (s : State) :
    (n.setInstance i s).received = n.received := rfl
@[simp] theorem Network.setRelay_instances (n : Network) (r : Nat) (x : Relay) :
    (n.setRelay r x).instances = n.instances := rfl
@[simp] theorem Network.setRelay_relays (n : Network) (r : Nat) (x : Relay) :
    (n.setRelay r x).relays = n.relays.set r x := rfl
@[simp] theorem Network.setRelay_received (n : Network) (r : Nat) (x : Relay) :
    (n.setRelay r x).received = n.received := rfl
@[simp] theorem Network.keepReceived_instances (n : Network) (x : Relay) (item : OutItem) :
    (n.keepReceived x item).instances = n.instances := rfl
@[simp] theorem Network.keepReceived_relays (n : Network) (x : Relay) (item : OutItem) :
    (n.keepReceived x item).relays = n.relays := rfl
@[simp] theorem Network.keepReceived_received (n : Network) (x : Relay) (item : OutItem) :
    (n.keepReceived x item).received = if x.feedback then n.received ++ [(x.src, item)] else n.received := rfl

/-- The two endpoints a relay joins. -/
def relayEnds (x : Relay) : Nat × Nat × Bool := (x.src, x.dst, x.feedback)

/-- A Send to an instance leaves the relays. -/
theorem Network.sendTo_relays {n n' : Network} {i : Nat} {v : Word} (h : n.sendTo i v = some n') :
    n'.relays = n.relays := by
  unfold Network.sendTo at h
  split at h
  · cases h
  · split at h <;> cases h
    rfl

/-- Replacing a relay by one with the same ends leaves the ends. -/
theorem map_ends_set {l : List Relay} {r : Nat} {x y : Relay} (h : l[r]? = some x) (e : relayEnds y = relayEnds x) :
    (l.set r y).map relayEnds = l.map relayEnds := by
  rw [List.map_set, e]
  obtain ⟨hr, rfl⟩ := List.getElem?_eq_some_iff.mp h
  rw [← List.getElem_map relayEnds (h := by simpa using hr), List.set_getElem_self]

/-- A relay's operation changes its phase and what it remembers, not its ends. -/
theorem Network.relayMove_ends {n n' : Network} {r : Nat} (h : n.relayMove r = some n') :
    n'.relays.map relayEnds = n.relays.map relayEnds := by
  unfold Network.relayMove at h
  split at h
  · cases h
  next x hx =>
  split at h
  · split at h
    · cases h
    split at h <;> cases h <;> exact map_ends_set hx rfl
  · obtain ⟨m, hm, rfl⟩ := Option.map_eq_some_iff.mp h
    rw [Network.setRelay_relays, Network.sendTo_relays hm]
    exact map_ends_set hx rfl
  · split at h
    · cases h
    · cases h; exact map_ends_set hx rfl
  · cases h

/-- R78: no move joins or parts endpoints. -/
theorem Network.move_ends {cfg : Config} {m : Move} {n n' : Network} (h : n.move cfg m = some n') :
    n'.relays.map relayEnds = n.relays.map relayEnds := by
  cases m <;> simp only [Network.move] at h
  · cases h; rfl
  · unfold Network.engineMove at h
    split at h
    · cases h
    split at h
    · cases h
    split at h <;> cases h
    rfl
  all_goals
    split at h
    · first
      | exact Network.relayMove_ends h
      | rw [Network.sendTo_relays h]
      | (obtain ⟨s, -, rfl⟩ := Option.map_eq_some_iff.mp h; rfl)
      | (unfold Network.receiveFrom at h
         split at h
         · cases h
         split at h <;> cases h <;> rfl)
    · cases h

/-- R78: a network whose relays share no endpoint stays one. -/
theorem Network.move_wired {cfg : Config} {m : Move} {n n' : Network} (h : n.move cfg m = some n') :
    n'.wired = n.wired := by
  have key : ∀ l : List Relay, l.Pairwise (fun x y => x.src ≠ y.src ∧ x.dst ≠ y.dst) ↔
      (l.map relayEnds).Pairwise (fun x y => x.1 ≠ y.1 ∧ x.2.1 ≠ y.2.1) := by
    intro l; rw [List.pairwise_map]; rfl
  unfold Network.wired
  simp only [key, Network.move_ends h]

end Sys2Proof.Machine
end

