-- ==== Sys2Proof/Laws/PerInstr.lean ====
section
/-! SUPPORT. Facts about the instruction word of every instruction, one lemma per constructor. -/

namespace Sys2Proof.Laws.EncodedWord

/-- R101, R106, R142: the word of an instruction, legal or not, is a number of at most five decimal digits, its two low
digits are the opcode and the next three are the mode digits. -/
def Statement (i : Instr) : Prop :=
  (encode i).toNat < 100000 ∧ low2 (encode i).toNat = i.opcode ∧
    digit (encode i).toNat 2 = i.digits.1 ∧ digit (encode i).toNat 3 = i.digits.2.1 ∧
    digit (encode i).toNat 4 = i.digits.2.2

/-- Decimal fields that are in range can be read back from the sum of R101. -/
theorem of_fields {i : Instr} (h : i.opcode < 100) : Statement i := by
  have h0 := i.digits.1.isLt
  have h1 := i.digits.2.1.isLt
  have h2 := i.digits.2.2.isLt
  have e : (encode i).toNat =
      i.opcode + 100 * i.digits.1.val + 1000 * i.digits.2.1.val + 10000 * i.digits.2.2.val := by
    unfold encode; rw [BitVec.toNat_ofNat]; omega
  unfold Statement
  rw [e]
  refine ⟨by omega, by unfold low2; omega, Fin.ext ?_, Fin.ext ?_, Fin.ext ?_⟩ <;> simp only [digit] <;> omega

theorem add (m0 m1 m2 : Mode) : Statement (.add m0 m1 m2) := of_fields (by simp [Instr.opcode])
theorem mul (m0 m1 m2 : Mode) : Statement (.mul m0 m1 m2) := of_fields (by simp [Instr.opcode])
theorem inp (m0 : Mode) (d1 d2 : Digit) : Statement (.inp m0 d1 d2) := of_fields (by simp [Instr.opcode])
theorem out (m0 : Mode) (d1 d2 : Digit) : Statement (.out m0 d1 d2) := of_fields (by simp [Instr.opcode])
theorem jt (m0 m1 : Mode) (d2 : Digit) : Statement (.jt m0 m1 d2) := of_fields (by simp [Instr.opcode])
theorem jf (m0 m1 : Mode) (d2 : Digit) : Statement (.jf m0 m1 d2) := of_fields (by simp [Instr.opcode])
theorem lt (m0 m1 m2 : Mode) : Statement (.lt m0 m1 m2) := of_fields (by simp [Instr.opcode])
theorem eq (m0 m1 m2 : Mode) : Statement (.eq m0 m1 m2) := of_fields (by simp [Instr.opcode])
theorem arb (m0 : Mode) (d1 d2 : Digit) : Statement (.arb m0 d1 d2) := of_fields (by simp [Instr.opcode])
theorem hlt (d0 d1 d2 : Digit) : Statement (.hlt d0 d1 d2) := of_fields (by simp [Instr.opcode])

end Sys2Proof.Laws.EncodedWord
end

