-- ==== Sys2Proof/Machine/Assembly.lean ====
section
/-! DEFINITION. The spec's own assembly language (R140 to R143), from its lines on: operands, labels, literal words and
pseudo-instructions. No hardware rule depends on it. -/

namespace Sys2Proof

/-- R141: `e`, a signed integer or a label. -/
inductive Expr where
  | num (e : Int)
  | label (name : String)
deriving DecidableEq, Repr

/-- R141: the operand forms. -/
inductive Operand where
  /-- `[e]` -/
  | cell (e : Expr)
  /-- `#e` -/
  | lit (e : Expr)
  /-- `[rb+e]` -/
  | rel (e : Expr)
  /-- `[rb-e]` -/
  | relMinus (e : Expr)
deriving DecidableEq, Repr

/-- R141: the mode of an operand. -/
def operandMode : Operand → Mode
  | .cell _ => .position
  | .lit _ => .immediate
  | .rel _ | .relMinus _ => .relative

/-- R141: a line of a program. -/
inductive Line where
  /-- `name:` -/
  | label (name : String)
  /-- an instruction with its operands -/
  | instr (i : Instr) (operands : List Operand)
  /-- `.word v0, v1, …` -/
  | word (values : List Int)
deriving DecidableEq, Repr

/-- How many words a line places. -/
def lineWords : Line → Nat
  | .label _ => 0
  | .instr _ operands => 1 + operands.length
  | .word values => values.length

/-- R141: a label is the address of the next word; `a` is the address of the first line's first word. R141 does not say what
a label defined twice in one program stands for: taking its first definition is the model's choice, and so is that a label
never defined has no address (log entry 19). -/
def labelAddress (name : String) : Nat → List Line → Option Nat
  | _, [] => none
  | a, .label n :: rest => if n = name then some a else labelAddress name a rest
  | a, .instr i operands :: rest => labelAddress name (a + lineWords (.instr i operands)) rest
  | a, .word values :: rest => labelAddress name (a + lineWords (.word values)) rest

/-- The word of an integer that is inside int64; `none` for one outside. R141 gives such an integer no meaning; that
assembling rejects it, as the loader of R402 rejects a text value outside int64, is the model's choice (log entry 17). -/
def literalWord (x : Int) : Option Word := if InInt64 x then some (wordOfInt x) else none

/-- R141: the value of an expression in a program; `none` for a label the program does not define (log entry 19). -/
def exprValue (program : List Line) : Expr → Option Int
  | .num e => some e
  | .label name => (labelAddress name 0 program).map Int.ofNat

/-- R141: the value of an operand, that of `e` or, in `[rb-e]`, of `−e`. -/
def operandValue (program : List Line) : Operand → Option Int
  | .cell e | .lit e | .rel e => exprValue program e
  | .relMinus e => (exprValue program e).map (fun x => -x)

/-- R141: the parameter word of an operand; `none` where it has no value, and for a value outside int64 (log entry 17). -/
def operandWord (program : List Line) (x : Operand) : Option Word :=
  (operandValue program x).bind literalWord

/-- R142: the words of a line: the instruction word, then the operands' parameter words in order; `none` where one of them
has no word (log entries 17 and 19). -/
def assembleLine (program : List Line) : Line → Option (List Word)
  | .label _ => some []
  | .instr i operands => (operands.mapM (operandWord program)).map (fun ws => encode i :: ws)
  | .word values => values.mapM literalWord

/-- The words of a program, placed from address 0 on (R402). -/
def assemble (program : List Line) : Option (List Word) :=
  (program.mapM (assembleLine program)).map List.flatten

/-- `add a, b, d` -/
def asmAdd (a b d : Operand) : Line := .instr (.add (operandMode a) (operandMode b) (operandMode d)) [a, b, d]
/-- `mul a, b, d` -/
def asmMul (a b d : Operand) : Line := .instr (.mul (operandMode a) (operandMode b) (operandMode d)) [a, b, d]
/-- `in d` -/
def asmIn (d : Operand) : Line := .instr (.inp (operandMode d) 0 0) [d]
/-- `out a` -/
def asmOut (a : Operand) : Line := .instr (.out (operandMode a) 0 0) [a]
/-- `jt c, t` -/
def asmJt (c t : Operand) : Line := .instr (.jt (operandMode c) (operandMode t) 0) [c, t]
/-- `jf c, t` -/
def asmJf (c t : Operand) : Line := .instr (.jf (operandMode c) (operandMode t) 0) [c, t]
/-- `lt a, b, d` -/
def asmLt (a b d : Operand) : Line := .instr (.lt (operandMode a) (operandMode b) (operandMode d)) [a, b, d]
/-- `eq a, b, d` -/
def asmEq (a b d : Operand) : Line := .instr (.eq (operandMode a) (operandMode b) (operandMode d)) [a, b, d]
/-- `arb a` -/
def asmArb (a : Operand) : Line := .instr (.arb (operandMode a) 0 0) [a]
/-- `hlt` -/
def asmHlt : Line := .instr (.hlt 0 0 0) []
/-- R143: `jmp t` is `jt #1, t`. -/
def asmJmp (t : Operand) : Line := asmJt (.lit (.num 1)) t
/-- R143: `mov s, d` is `add s, #0, d`. -/
def asmMov (s d : Operand) : Line := asmAdd s (.lit (.num 0)) d
/-- R143: `clr d` is `add #0, #0, d`. -/
def asmClr (d : Operand) : Line := asmAdd (.lit (.num 0)) (.lit (.num 0)) d

end Sys2Proof
end

