-- ==== Sys2Proof/Tests/Slice0.lean ====
section
/-! SUPPORT. The model's own tests: expected results are the spec's (95_test_vectors.md and the examples of the rules), and
for every obligation with hypotheses a concrete case that meets them. -/

namespace Sys2Proof.Tests

open Sys2Proof Sys2Proof.Machine

/-! ### Helpers -/

/-- An instance constructed from a program. -/
def booted (program : List Int) : State := construct (program.map wordOfInt)

/-- The state after one step. -/
def stepped (s : State) : State :=
  match step s with
  | .next t => t
  | .fault _ => s
  | .refused _ => s

/-- The state after one step under a configuration. -/
def steppedIn (cfg : Config) (s : State) : State :=
  match stepIn cfg s with
  | .next t => t
  | .fault _ => s
  | .refused _ => s

theorem step_answers (s : State) : step s = .next (stepped s) := by
  obtain ⟨t, h⟩ : ∃ t, step s = .next t := by
    by_cases hr : s.status = .running
    · rw [step_running hr]; exact settle_next _ _
    · exact ⟨s, step_ended hr⟩
  rw [stepped, h]

theorem exec_answers (i : Instr) (s : State) : ∃ t, exec i s = .next t := by rw [exec_eq]; exact settle_next _ _

/-- R13 with `OVERFLOW_MODE = wrap`. -/
def wrapping : Config := { Config.hw with overflow := .wrap }

/-- R13 with `STRICT_UNUSED_MODES = false`. -/
def lenient : Config := { Config.hw with strictUnusedModes := false }

/-- What `Ready` asks, as one decidable fact. -/
theorem ready_intro {i : Instr} {s : State}
    (h : s.status = .running ∧ 0 ≤ s.pc.toInt ∧ (paramsOf i = [] ∨ s.pc.toInt + 1 + (paramsOf i).length ≤ int64Max) ∧
      s.firstFault 0 (paramsOf i) = none) : Ready i s :=
  ⟨h.1, h.2.1, fun hp => h.2.2.1.resolve_left hp, h.2.2.2⟩

/-! ### WellFormed: each check refuses an ill-formed term -/

theorem test_wf_write_immediate :
    [Instr.add .position .position .immediate, .mul .position .position .immediate, .lt .position .position .immediate,
      .eq .position .position .immediate, .inp .immediate 0 0].all (fun i => !i.wf) = true := by decide

theorem test_wf_unused_digit :
    [Instr.inp .position 3 0, .inp .position 0 3, .out .position 3 0, .out .position 0 3, .arb .position 3 0,
      .arb .position 0 3, .jt .position .position 3, .jf .position .position 3, .hlt 3 0 0, .hlt 0 3 0, .hlt 0 0 3].all
      (fun i => !i.wf && i.wfIn lenient) = true := by decide

theorem test_wf_accepts :
    [Instr.add .immediate .relative .relative, .mul .relative .immediate .position, .inp .relative 2 2,
      .out .immediate 2 2, .jt .immediate .relative 2, .jf .relative .immediate 2, .lt .position .immediate .relative,
      .eq .immediate .position .position, .arb .immediate 2 2, .hlt 2 2 2].all (fun i => i.wf) = true := by decide

/-! ### Decode: the words of L2.1 and of R101 -/

theorem test_decode_accepts :
    [((1 : Int), Instr.add .position .position .position), (1101, .add .immediate .immediate .position),
      (21101, .add .immediate .immediate .relative), (22201, .add .relative .relative .relative),
      (1002, .mul .position .immediate .position), (203, .inp .relative 0 0), (104, .out .immediate 0 0),
      (204, .out .relative 0 0), (1104, .out .immediate 1 0), (1105, .jt .immediate .immediate 0),
      (2105, .jt .immediate .relative 0), (1106, .jf .immediate .immediate 0), (1107, .lt .immediate .immediate .position),
      (1108, .eq .immediate .immediate .position), (109, .arb .immediate 0 0), (209, .arb .relative 0 0), (99, .hlt 0 0 0),
      (199, .hlt 1 0 0), (299, .hlt 2 0 0), (20099, .hlt 0 0 2)].all
      (fun c => decide (decode (wordOfInt c.1) = .ok c.2)) = true := by decide

theorem test_decode_invalid_opcode :
    [(0 : Int), 10, 98, -1, -99, -100, 100098, int64Min].all
      (fun w => decide (decode (wordOfInt w) = .error .invalidOpcode)) = true := by decide

theorem test_decode_invalid_mode :
    [(399 : Int), 30099, 3004, 11101, 103, 100001, 99999, 11108].all
      (fun w => decide (decode (wordOfInt w) = .error .invalidAddressingMode)) = true := by decide

theorem test_decode_lenient :
    decodeIn lenient 399 = .ok (.hlt 3 0 0) ∧ decodeIn lenient 30099 = .ok (.hlt 0 0 3) ∧
      decodeIn lenient 3004 = .ok (.out .position 3 0) ∧ decodeIn lenient 11101 = .error .invalidAddressingMode ∧
      decodeIn lenient 301 = .error .invalidAddressingMode ∧ decodeIn lenient 100001 = .error .invalidAddressingMode := by
  decide

theorem test_decode_table_word :
    decodeTableWord 64 1002 = some (.mul .position .immediate .position) ∧ decodeTableWord 40 99 = some (.hlt 0 0 0) ∧
      decodeTableWord 256 (2 ^ 64 * 5 + 104) = some (.out .immediate 0 0) ∧ decodeTableWord 64 98 = none := by decide

/-! ### Assembly (R142, R143) -/

theorem test_assembly :
    assemble [asmMul (.cell (.num 4)) (.lit (.num 3)) (.cell (.num 4))] = some [1002, 4, 3, 4] ∧
      assemble [asmArb (.rel (.num (-3))), asmMov (.lit (.num 1)) (.cell (.num 31)), asmJmp (.lit (.num 6))] =
        some [209, wordOfInt (-3), 1101, 1, 0, 31, 1105, 1, 6] ∧
      assemble [asmClr (.rel (.num 7)), asmJf (.cell (.label "x")) (.lit (.num 0))] = none ∧
      assemble [.word [int64Max]] = some [wordOfInt int64Max] ∧ assemble [.word [int64Max + 1]] = none ∧
      assemble [asmOut (.lit (.num (int64Min - 1)))] = none := by decide

/-- L3.1, with its two addresses as labels. -/
theorem test_assembly_countdown :
    assemble [.label "loop", asmOut (.cell (.label "n")), asmAdd (.cell (.label "n")) (.lit (.num (-1))) (.cell (.label "n")),
      asmJt (.cell (.label "n")) (.lit (.label "loop")), asmHlt, .label "n", .word [3]] =
    some ([4, 10, 1001, 10, -1, 10, 1005, 10, 0, 99, 3].map wordOfInt) := by decide

/-- R141: `[rb-e]` has the value of `−e`, for an integer and for a label; log entry 19: the first definition of a label. -/
theorem test_assembly_operands :
    assemble [asmArb (.relMinus (.num 3)), .label "x", asmOut (.relMinus (.label "x"))] =
        some ([209, -3, 204, -2].map wordOfInt) ∧
      assemble [asmOut (.relMinus (.num int64Min))] = none ∧
      assemble [asmHlt, .label "x", asmOut (.cell (.label "x")), .label "x"] = some [99, 4, 1] := by decide

/-! ### Steps: the spec's examples and L2.2 to L2.9 -/

theorem test_add_example :
    (stepped (booted [1, 9, 10, 3, 2, 3, 11, 0, 99, 30, 40, 50])).mem.read 3 = 70 ∧
      stepped (booted [1, 0, 0, 0, 99]) = { booted [2, 0, 0, 0, 99] with pc := 4 } ∧
      (stepped (booted [1101, 4, 4, 1, 99])).mem.read 1 = 8 := by decide

theorem test_add_overflow :
    stepped (booted [1101, int64Max, 1, 5, 99]) =
        { booted [1101, int64Max, 1, 5, 99] with status := .faulted .arithmeticOverflow 0 } ∧
      (steppedIn wrapping (booted [1101, int64Max, 1, 5, 99])).mem.read 5 = wordOfInt int64Min := by decide

theorem test_mul_overwrites_next :
    (stepped (booted [1002, 4, 3, 4, 33])).mem.read 4 = 99 ∧ (stepped (booted [1002, 4, 3, 4, 33])).pc = 4 := by decide

theorem test_mul_overflow :
    (stepped (booted [1102, int64Min, -1, 5, 99])).status = .faulted .arithmeticOverflow 0 ∧
      (steppedIn wrapping (booted [1102, 4294967296, 4294967296, 5, 99])).mem.read 5 = 0 := by decide

theorem test_in_takes_head :
    stepped { booted [3, 0, 4, 0, 99] with inQ := [7, 8] } =
      { booted [7, 0, 4, 0, 99] with inQ := [8], pc := 2 } := by decide

theorem test_in_target_before_queue :
    (stepped (booted [3, -1, 99])).status = .faulted .invalidAddress 0 ∧ held (booted [3, 0, 99]) = true ∧
      (stepped (booted [3, 0, 99])) = booted [3, 0, 99] := by decide

theorem test_out_large :
    stepped (booted [104, 1125899906842624, 99]) =
      { booted [104, 1125899906842624, 99] with outQ := [.value 1125899906842624], pc := 2 } := by decide

theorem test_out_reads_past_end :
    (stepped (booted [4, 50, 99])).outQ = [.value 0] ∧ (stepped (booted [4, 50, 99])).memLen = 51 ∧
      steppedIn { Config.hw with memCapacity := some 10 } (booted [4, 50, 99]) =
        { booted [4, 50, 99] with status := .faulted .capacityExceeded 0 } := by decide

theorem test_jt_negative_target :
    stepped (booted [1105, 1, -3]) = { booted [1105, 1, -3] with status := .faulted .invalidAddress 0 } ∧
      (stepped (booted [1105, 1, 7])).pc = 7 := by decide

theorem test_jt_eager :
    (stepped (booted [105, 0, -1, 99])).status = .faulted .invalidAddress 0 ∧
      (stepped (booted [5, 1, -1, 99])).status = .faulted .invalidAddress 0 := by decide

theorem test_jf_taken : (stepped (booted [1106, 0, 7])).pc = 7 ∧ (stepped (booted [1106, 5, 7])).pc = 3 := by decide

theorem test_jf_ignores_untaken_value :
    (stepped (booted [1106, 1, -3, 99])).pc = 3 ∧ (stepped (booted [1106, 1, -3, 99])).status = .running := by decide

theorem test_lt_signed :
    (stepped (booted [1107, -1, 0, 5, 99])).mem.read 5 = 1 ∧
      (stepped (booted [1107, int64Min, int64Max, 5, 99])).mem.read 5 = 1 := by decide

theorem test_lt_strict : (stepped (booted [1107, 7, 7, 5, 99])).mem.read 5 = 0 := by decide

theorem test_eq_full_width :
    (stepped (booted [1108, 4294967296, 0, 5, 99])).mem.read 5 = 0 ∧
      (stepped (booted [1108, -3, -3, 5, 99])).mem.read 5 = 1 := by decide

theorem test_eq_writes_operand :
    (stepped { booted [3, 9, 8, 9, 10, 9, 4, 9, 99, 8, 8] with pc := 2 }).mem.read 9 = 1 := by decide

theorem test_arb_immediate :
    (stepped { booted [109, 19, 99] with rb := 2000 }).rb = 2019 ∧ (stepped { booted [109, 19, 99] with rb := 2000 }).pc = 2 := by
  decide

theorem test_arb_old_base :
    (stepped { booted [109, 5, 209, -3, 99] with rb := 5, pc := 2 }).rb = 214 ∧
      (stepped { booted [109, -5, 204, 2, 99] with rb := wordOfInt (-5), pc := 2 }).status = .faulted .invalidAddress 2 := by
  decide

theorem test_hlt : stepped (booted [99]) = { booted [99] with outQ := [.haltSentinel], status := .halted } := by decide

theorem test_hlt_modes :
    (stepped (booted [199])).status = .halted ∧ (stepped (booted [399])).status = .faulted .invalidAddressingMode 0 := by
  decide

theorem test_first_parameter_faults :
    (stepped (booted [1, -1, -2, 0])).status = .faulted .invalidAddress 0 ∧
      (steppedIn wrapping { booted [204, 1, 99] with rb := wordOfInt int64Max }).status = .faulted .invalidAddress 0 ∧
      (stepped { booted [204, 1, 99] with rb := wordOfInt int64Max }).status = .faulted .arithmeticOverflow 0 := by decide

theorem test_empty_program : stepped (booted []) = { booted [] with status := .faulted .invalidOpcode 0 } := by decide

theorem test_fault_numbers :
    [FaultCode.invalidOpcode, .invalidAddressingMode, .invalidAddress, .inputExhausted, .arithmeticOverflow,
      .capacityExceeded].map faultNumber = [1, 2, 3, 4, 5, 6] := by decide

theorem test_legal_parameters :
    legalParameters Config.hw 5 = true ∧ legalParameters { Config.hw with memCapacity := some 4 } 5 = false ∧
      legalParameters { Config.hw with outCapacity := some 0 } 5 = false := by decide

/-! ### The host's two functions: a placed instruction is decoded and run -/

/-- `add #0, #0, [0]`, its parameter words zeros, overwrites its own instruction word with 0. -/
theorem test_with_fetch_word :
    stepped (State.reset.withFetchWord 64 1101) =
      { State.reset.withFetchWord 64 1101 with mem := [], pc := 4 } ∧
      (stepped (State.reset.withFetchWord 64 99)).status = .halted ∧
      (stepped (State.reset.withFetchWord 256 (2 ^ 64 * 7 + 104))).outQ = [.value 7] := by decide

/-! ### The driver, the Runner and the relays -/

theorem test_run_with_last_step :
    runWith Config.hw 1 [99] [] = some (.ok []) ∧ runWith Config.hw 1 [3, 0, 99] [] = some (.error .inputExhausted) := by
  decide

theorem test_drain_leaves_sentinel_out :
    drain 3 { State.reset with outQ := [.value 1, .value 2, .haltSentinel], status := .halted } = [1, 2] := by decide

/-- Instance 0 has halted with one value sent; a relay joins it to instance 1. -/
def pair (phase : RelayPhase) (feedback : Bool) (queue : List OutItem) (status : Status) : Network where
  instances := [{ booted [99] with outQ := queue, status := status }, booted [3, 0, 99]]
  relays := [{ src := 0, dst := 1, feedback := feedback, phase := phase, last := none }]
  received := []

theorem test_relay_moves :
    (pair .ready false [.value 5, .haltSentinel] .halted).moves Config.hw [.relay 0, .relay 0] =
      some { pair .ready false [.haltSentinel] .halted with
        instances := [{ booted [99] with outQ := [.haltSentinel], status := .halted }, { booted [3, 0, 99] with inQ := [5] }]
        relays := [{ src := 0, dst := 1, feedback := false, phase := .ready, last := some 5 }] } := by decide

/-- R343, R350: what the feedback relay receives, the driver received; it stops at the sentinel. -/
theorem test_feedback_received :
    ((pair .ready true [.value 5, .haltSentinel] .halted).moves Config.hw [.relay 0, .relay 0, .relay 0]).map
        (fun n => (n.received, n.relays.map (fun x => (x.phase, x.last)), n.instances.map (fun s => s.inQ))) =
      some ([(0, .value 5), (0, .haltSentinel)], [(.stopped, some 5)], [[], [5]]) := by decide

/-- R78: the driver does not use the endpoints of another agent's relay, but sends to the input its own relay feeds; two
relays on one endpoint do not move. -/
theorem test_one_producer_one_consumer :
    ([Move.send 1 3, .close 1, .receive 0, .disconnect 0].all
        (fun m => ((pair .ready false [.value 5] .running).move Config.hw m).isNone)) = true ∧
      ((pair .ready true [.value 5] .running).move Config.hw (.send 1 3)).isSome = true ∧
      ((pair .ready true [.value 5] .running).move Config.hw (.receive 0)).isNone = true ∧
      ((pair .stopped true [.value 5] .running).move Config.hw (.receive 0)).isSome = true ∧
      (({ pair .ready false [.value 5] .running with
        relays := (pair .ready false [] .running).relays ++ (pair .ready false [] .running).relays } : Network).move
          Config.hw (.relay 0)).isNone = true := by decide

/-- A program that jumps to itself for ever, and a driver that waits in Receive for its output. -/
def looping : Network := { instances := [booted [1105, 1, 0]], relays := [], received := [] }

theorem looping_step : looping.move Config.hw (.engine 0) = some looping := by decide

/-- R421, R333: the looping instance with the waiting driver has a weakly fair run: the instance steps for ever. -/
theorem test_waiting_driver_has_fair_run :
    isRun Config.hw (fun _ => some (.engine 0)) (fun _ => looping) ∧
      weaklyFair Config.hw (fun _ => some (.engine 0)) (fun _ => looping) (fun _ => [.receive 0]) := by
  refine ⟨fun _ => looping_step, ⟨fun _ m h => ?_, fun _ m h hd => ?_, fun _ m h _ => h⟩, fun m k h => ?_⟩
  · rw [List.mem_singleton.mp h]; rfl
  · cases h; cases hd
  · obtain ⟨he, hp⟩ := h k (le_refl k)
    cases m with
    | engine i =>
      cases i with
      | zero => exact ⟨k, le_refl k, rfl⟩
      | succ i => cases he
    | relay r => cases he
    | construct p => cases List.mem_singleton.mp (hp rfl)
    | send i v => cases List.mem_singleton.mp (hp rfl)
    | close i => cases List.mem_singleton.mp (hp rfl)
    | disconnect i => cases List.mem_singleton.mp (hp rfl)
    | receive i =>
      cases List.mem_singleton.mp (hp rfl)
      exact absurd (show looping.enables Config.hw (.receive 0) = true from he) (by decide)

theorem test_network_construct :
    ((pair .stopped false [] .halted).move Config.hw (.construct [99])).map (fun n => n.instances.length) = some 3 := by
  decide

theorem test_network_end :
    ((pair .ready false [.haltSentinel] .halted).moves Config.hw [.relay 0, .relay 0, .engine 1]).map
        (fun n => (n.ended, n.instances.map (fun s => s.status))) =
      some (true, [.halted, .faulted .inputExhausted 0]) := by decide

/-! ### Witnesses: the hypotheses of each obligation can be met -/

theorem witness_DecodeInvertsEncode :
    (Instr.add .relative .immediate .relative).wfIn Config.hw = true ∧ (Instr.hlt 9 9 9).wfIn lenient = true := by decide

theorem witness_EncodeInvertsDecode :
    decodeIn Config.hw 22299 = .ok (.hlt 2 2 2) ∧ decodeIn lenient 99999 = .ok (.hlt 9 9 9) := by decide

theorem witness_DecodeFaultsInOrder :
    (wordOfInt (-1)).toInt < 0 ∧ (wordOfInt 100098).toInt % 100 ∉ [(1 : Int), 2, 3, 4, 5, 6, 7, 8, 9, 99] ∧
      100000 ≤ (wordOfInt 100001).toInt ∧ 2 < (wordOfInt 30099).toInt / 10000 % 10 ∧
      ((wordOfInt 11101).toInt % 100 ∈ [(1 : Int), 2, 7, 8] ∧ (wordOfInt 11101).toInt / 10000 % 10 = 1) ∧
      ((wordOfInt 103).toInt % 100 = 3 ∧ (wordOfInt 103).toInt / 100 % 10 = 1) ∧ decode 22299 = .ok (.hlt 2 2 2) := by
  decide

theorem witness_OperandResolution :
    (wordOfInt (-1)).toInt < 0 ∧
      InInt64 (({ State.reset with rb := wordOfInt int64Max } : State).rb.toInt + (0 : Word).toInt) ∧
      (¬ InInt64 (({ State.reset with rb := wordOfInt int64Max } : State).rb.toInt + (1 : Word).toInt) ∧
        Config.hw.overflow = .trap ∧ wrapping.overflow = .wrap) ∧
      (InInt64 (State.reset.rb.toInt + (wordOfInt (-1)).toInt) ∧ State.reset.rb.toInt + (wordOfInt (-1)).toInt < 0) ∧
      (wrapping.overflow = .wrap ∧ (({ State.reset with rb := wordOfInt int64Max } : State).rb + 1).toInt < 0) := by decide

theorem witness_ReadReturnsLastWrite :
    State.reset.mem.wf = true ∧ 0 ≤ (wordOfInt int64Max).toInt ∧ 0 ≤ (0 : Word).toInt ∧ (0 : Word) ≠ wordOfInt int64Max := by
  decide

theorem witness_MemoryAccessChecks :
    (wordOfInt (-1)).toInt < 0 ∧
      (({ Config.hw with memCapacity := some 10 } : Config).memCapacity = some 10 ∧ 0 ≤ (10 : Word).toInt ∧
        ((10 : Nat) : Int) ≤ (10 : Word).toInt) ∧
      0 ≤ (9 : Word).toInt ∧ (9 : Word).toInt < ((10 : Nat) : Int) ∧
      ((booted [5]).mem.all (fun c => decide (c.1 < (booted [5]).memLen)) = true ∧ (booted [5]).memLen ≤ (1 : Word).toNat) := by
  decide

theorem witness_MemoryNeverShrinks : step (booted [4, 50, 99]) = .next (stepped (booted [4, 50, 99])) := step_answers _

theorem witness_CanonicalMemoryIsItsReads :
    Memory.wf [(3, 5), (7, 1)] = true ∧ ∀ a, Memory.read [(3, 5), (7, 1)] a = Memory.read [(3, 5), (7, 1)] a :=
  ⟨by decide, fun _ => rfl⟩

theorem witness_ConstructionPlacesProgram :
    ([5, 6] : List Word)[1]? = some 6 ∧ ([5, 6] : List Word).length ≤ 2 := by decide

theorem witness_ConstructionHasInvariant : ([5, 6] : List Word).length ≤ 9223372036854775808 := by decide

theorem witness_StepRunsDecodedInstruction :
    (booted [99]).status = .running ∧ 0 ≤ (booted [99]).pc.toInt ∧
      decode ((booted [99]).mem.read (booted [99]).pc.toNat) = .ok (.hlt 0 0 0) := by decide

theorem witness_StepTakesDecodeFault :
    (booted [399]).status = .running ∧ 0 ≤ (booted [399]).pc.toInt ∧
      decode ((booted [399]).mem.read (booted [399]).pc.toNat) = .error .invalidAddressingMode := by decide

theorem witness_NegativeWordFaults :
    (booted [-1]).status = .running ∧ 0 ≤ (booted [-1]).pc.toInt ∧
      ((booted [-1]).mem.read (booted [-1]).pc.toNat).toInt < 0 := by decide

theorem witness_UnknownOpcodeFaults :
    ([0, 10, 98, 100098] : List Int).all (fun w =>
      decide ((booted [w]).status = .running ∧ 0 ≤ (booted [w]).pc.toInt ∧
        0 ≤ ((booted [w]).mem.read (booted [w]).pc.toNat).toInt ∧
        (((booted [w]).mem.read (booted [w]).pc.toNat).toInt % 100 = 0 ∨
          (10 ≤ ((booted [w]).mem.read (booted [w]).pc.toNat).toInt % 100 ∧
            ((booted [w]).mem.read (booted [w]).pc.toNat).toInt % 100 ≤ 98)))) = true := by decide

theorem witness_PlacedInstructionRuns : (Instr.inp .relative 2 0).wf = true := by decide

theorem witness_EndedInstanceNeverChanges :
    (stepped (booted [99])).status ≠ .running ∧ core.run 0 (stepped (booted [99])) = .next (stepped (booted [99])) ∧
      (stepped (booted [0])).status ≠ .running :=
  ⟨by decide, rfl, by decide⟩

/-- A halted instance with its sentinel still queued has the invariant, and so has a faulted one. -/
theorem witness_StepKeepsInvariant :
    ({ booted [99] with outQ := [.value 1, .haltSentinel], status := .halted } : State).Inv ∧
      (booted [1101, 1, 1, 5, 99]).Inv ∧
      step (booted [1101, 1, 1, 5, 99]) = .next (stepped (booted [1101, 1, 1, 5, 99])) := by
  refine ⟨⟨by decide, by decide, by decide, by decide, by decide, by decide, by decide, ?_⟩,
    ⟨by decide, by decide, by decide, by decide, by decide, by decide, by decide, ?_⟩, step_answers _⟩
  · intro c fpc h; cases h
  · intro c fpc h; cases h

theorem witness_FaultsArePrecise :
    (booted [0]).status = .running ∧ step (booted [0]) = .next (stepped (booted [0])) ∧
      (stepped (booted [0])).status = .faulted .invalidOpcode 0 := ⟨by decide, step_answers _, by decide⟩

theorem witness_PcRule : ∃ t, exec (.jt .immediate .immediate 0) (booted [1105, 1, 7]) = .next t := exec_answers _ _

theorem witness_RelativeBaseOnlyByArb :
    step (booted [109, 19]) = .next (stepped (booted [109, 19])) ∧ (stepped (booted [109, 19])).rb ≠ (booted [109, 19]).rb :=
  ⟨step_answers _, by decide⟩

theorem witness_OutputIsUnobservable :
    SameToProgram (booted [99]) { booted [99] with outQ := [.value 3], outGone := true, memLen := 9 } :=
  ⟨rfl, rfl, rfl, rfl, rfl, rfl⟩

theorem witness_QueuesAreFifo : core.run 0 (booted [99]) = .next (booted [99]) := rfl

/-- `add #(INT64_MAX − 1), #1, [5]`: the sum is INT64_MAX. -/
theorem witness_AddWritesSum :
    Ready (.add .immediate .immediate .position) (booted [1101, 9223372036854775806, 1, 5]) ∧
      (booted [1101, 9223372036854775806, 1, 5]).target 2 .position = some 5 ∧
      InInt64 (((booted [1101, 9223372036854775806, 1, 5]).operand 0 .immediate).toInt +
        ((booted [1101, 9223372036854775806, 1, 5]).operand 1 .immediate).toInt) :=
  ⟨ready_intro (by decide), by decide, by decide⟩

/-- `mul #INT64_MIN, #1, [rb+5]`: the product is INT64_MIN. -/
theorem witness_MultiplyWritesProduct :
    Ready (.mul .immediate .immediate .relative) (booted [21102, int64Min, 1, 5]) ∧
      (booted [21102, int64Min, 1, 5]).target 2 .relative = some 5 ∧
      InInt64 (((booted [21102, int64Min, 1, 5]).operand 0 .immediate).toInt *
        ((booted [21102, int64Min, 1, 5]).operand 1 .immediate).toInt) :=
  ⟨ready_intro (by decide), by decide, by decide⟩

theorem witness_LessThanWritesComparison :
    Ready (.lt .position .immediate .position) (booted [1007, 5, 0, 9]) ∧
      (booted [1007, 5, 0, 9]).target 2 .position = some 9 := ⟨ready_intro (by decide), by decide⟩

theorem witness_EqualsWritesComparison :
    Ready (.eq .relative .position .position) (booted [208, 0, 0, 0]) ∧
      (booted [208, 0, 0, 0]).target 2 .position = some 0 := ⟨ready_intro (by decide), by decide⟩

/-- The producer has closed, and the value queued before is still taken. -/
theorem witness_InputTakesHead :
    Ready (.inp .position 0 0) { booted [3, 0] with inQ := [7], inClosed := true } ∧
      ({ booted [3, 0] with inQ := [7], inClosed := true } : State).target 0 .position = some 0 ∧
      ({ booted [3, 0] with inQ := [7], inClosed := true } : State).inQ = 7 :: [] :=
  ⟨ready_intro (by decide), by decide, rfl⟩

theorem witness_OutputAppendsValue :
    Ready (.out .relative 0 0) (booted [204, 7]) ∧ (booted [204, 7]).outGone = false := ⟨ready_intro (by decide), rfl⟩

theorem witness_OutputDiscardsWhenGone :
    Ready (.out .immediate 0 0) { booted [104, 7] with outGone := true } ∧
      ({ booted [104, 7] with outGone := true } : State).outGone = true := ⟨ready_intro (by decide), rfl⟩

theorem witness_JumpIfTrueTakesNonzero :
    (Ready (.jt .immediate .immediate 0) (booted [1105, int64Min, 0]) ∧
      (booted [1105, int64Min, 0]).operand 0 .immediate ≠ 0#64 ∧
      0 ≤ ((booted [1105, int64Min, 0]).operand 1 .immediate).toInt) ∧
    (Ready (.jt .immediate .immediate 0) (booted [1105, 0, -3]) ∧ (booted [1105, 0, -3]).operand 0 .immediate = 0#64) :=
  ⟨⟨ready_intro (by decide), by decide, by decide⟩, ready_intro (by decide), by decide⟩

theorem witness_JumpIfFalseTakesZero :
    (Ready (.jf .immediate .immediate 0) (booted [1106, 0, 0]) ∧ (booted [1106, 0, 0]).operand 0 .immediate = 0#64 ∧
      0 ≤ ((booted [1106, 0, 0]).operand 1 .immediate).toInt) ∧
    (Ready (.jf .immediate .immediate 0) (booted [1106, -1, -3]) ∧ (booted [1106, -1, -3]).operand 0 .immediate ≠ 0#64) :=
  ⟨⟨ready_intro (by decide), by decide, by decide⟩, ready_intro (by decide), by decide⟩

theorem witness_AdjustRelativeBaseAdds :
    Ready (.arb .immediate 0 0) (booted [109, int64Min]) ∧
      InInt64 ((booted [109, int64Min]).rb.toInt + ((booted [109, int64Min]).operand 0 .immediate).toInt) :=
  ⟨ready_intro (by decide), by decide⟩

/-- The last word of memory can hold a Halt. -/
theorem witness_HaltSendsSentinel :
    Ready (.hlt 0 0 0) { booted [] with mem := [(9223372036854775807, 99)], memLen := 9223372036854775808,
                                        pc := wordOfInt int64Max } := ready_intro (by decide)

/-- Parameter 2 of an Add whose fall-through address is the last one; parameter 0 of one at the beginning. -/
theorem witness_FirstParameterFaultIsTaken :
    (0 ≤ (booted [1, -1, -2, 0]).pc.toInt ∧
      (booted [1, -1, -2, 0]).pc.toInt + 1 + (paramsOf (.add .position .position .position)).length ≤ int64Max ∧
      (booted [1, -1, -2, 0]).firstFault 0 (paramsOf (.add .position .position .position)) = some .invalidAddress) ∧
    (0 ≤ ({ booted [] with mem := [(9223372036854775806, wordOfInt (-1))], pc := wordOfInt 9223372036854775803 } : State).pc.toInt ∧
      ({ booted [] with mem := [(9223372036854775806, wordOfInt (-1))], pc := wordOfInt 9223372036854775803 } : State).pc.toInt +
        1 + (paramsOf (.add .position .position .position)).length ≤ int64Max ∧
      ({ booted [] with mem := [(9223372036854775806, wordOfInt (-1))], pc := wordOfInt 9223372036854775803 } : State).firstFault 0
        (paramsOf (.add .position .position .position)) = some .invalidAddress) := by decide

theorem witness_AddressBoundFaults :
    0 ≤ ({ booted [] with pc := wordOfInt 9223372036854775804 } : State).pc.toInt ∧
      paramsOf (.add .position .position .position) ≠ [] ∧
      int64Max < ({ booted [] with pc := wordOfInt 9223372036854775804 } : State).pc.toInt + 1 +
        (paramsOf (.add .position .position .position)).length := by decide

theorem witness_OverflowTraps :
    (Ready (.add .immediate .immediate .position) (booted [1101, int64Max, 1, 5]) ∧
      ¬ InInt64 (((booted [1101, int64Max, 1, 5]).operand 0 .immediate).toInt +
        ((booted [1101, int64Max, 1, 5]).operand 1 .immediate).toInt)) ∧
    (Ready (.mul .immediate .immediate .position) (booted [1102, int64Min, -1, 5]) ∧
      ¬ InInt64 (((booted [1102, int64Min, -1, 5]).operand 0 .immediate).toInt *
        ((booted [1102, int64Min, -1, 5]).operand 1 .immediate).toInt)) ∧
    (Ready (.arb .immediate 0 0) { booted [109, 1] with rb := wordOfInt int64Max } ∧
      ¬ InInt64 (({ booted [109, 1] with rb := wordOfInt int64Max } : State).rb.toInt +
        (({ booted [109, 1] with rb := wordOfInt int64Max } : State).operand 0 .immediate).toInt)) :=
  ⟨⟨ready_intro (by decide), by decide⟩, ⟨ready_intro (by decide), by decide⟩, ready_intro (by decide), by decide⟩

theorem witness_NegativeJumpTargetFaults :
    (((booted [1105, 1, -1]).operand 1 .immediate).toInt < 0 ∧ Ready (.jt .immediate .immediate 0) (booted [1105, 1, -1]) ∧
      (booted [1105, 1, -1]).operand 0 .immediate ≠ 0#64) ∧
    (((booted [1106, 0, -1]).operand 1 .immediate).toInt < 0 ∧ Ready (.jf .immediate .immediate 0) (booted [1106, 0, -1]) ∧
      (booted [1106, 0, -1]).operand 0 .immediate = 0#64) :=
  ⟨⟨by decide, ready_intro (by decide), by decide⟩, by decide, ready_intro (by decide), by decide⟩

theorem witness_InputOnEmptyQueue :
    (Ready (.inp .position 0 0) (booted [3, 0]) ∧ (booted [3, 0]).inQ = []) ∧
    (Ready (.inp .position 0 0) { booted [3, 0] with inClosed := true } ∧
      ({ booted [3, 0] with inClosed := true } : State).inQ = []) :=
  ⟨⟨ready_intro (by decide), rfl⟩, ready_intro (by decide), rfl⟩

theorem witness_HeldIsTheInputWait :
    held (booted [3, 0]) = true ∧ held { booted [3, 0] with inClosed := true } = false ∧
      held { booted [3, 0] with inQ := [1] } = false ∧ held (booted [3, -1]) = false := by decide

theorem witness_ThreeOperandFrame :
    (∃ t, exec (.add .position .position .position) (booted [1, 0, 0, 0]) = .next t) ∧
      (booted [1, 0, 0, 0]).target 2 .position = some 0 ∧ (booted [1, 0, 0, 0]).target 2 .immediate = none :=
  ⟨exec_answers _ _, by decide, by decide⟩

theorem witness_InputFrame :
    (∃ t, exec (.inp .position 0 0) { booted [3, 0] with inQ := [7] } = .next t) ∧
      ({ booted [3, 0] with inQ := [7] } : State).target 0 .position = some 0 ∧
      ({ booted [3, 0] with inQ := [7] } : State).target 0 .immediate = none := ⟨exec_answers _ _, by decide, by decide⟩

theorem witness_NonStoringFrame :
    (∃ t, exec (.out .immediate 0 0) (booted [104, 7]) = .next t) ∧
      (∃ t, exec (.jt .immediate .immediate 0) (booted [1105, 1, 7]) = .next t) ∧
      (∃ t, exec (.jf .immediate .immediate 0) (booted [1106, 1, 7]) = .next t) ∧
      (∃ t, exec (.arb .immediate 0 0) (booted [109, 7]) = .next t) ∧ ∃ t, exec (.hlt 0 0 0) (booted [99]) = .next t :=
  ⟨exec_answers _ _, exec_answers _ _, exec_answers _ _, exec_answers _ _, exec_answers _ _⟩

theorem witness_FaultCodesByConfiguration :
    (booted [0]).status = .running ∧ (stepped (booted [0])).status = .faulted .invalidOpcode 0 ∧
      step (booted [0]) = .next (stepped (booted [0])) ∧
      stepIn wrapping (booted [0]) = .next (stepped (booted [0])) ∧ wrapping.memCapacity = none ∧
      wrapping.overflow = .wrap := ⟨by decide, by decide, step_answers _, rfl, rfl, rfl⟩

/-- In the three clauses under wrap the exact results are INT64_MAX + 1, INT64_MIN × (−1) and INT64_MAX + 1. -/
theorem witness_WrapAgreesWithoutOverflow :
    (step (booted [99]) = .next (stepped (booted [99])) ∧
      ∀ fpc, (stepped (booted [99])).status ≠ .faulted .arithmeticOverflow fpc) ∧
    (Ready (.add .immediate .immediate .position) (booted [1101, int64Max, 1, 5]) ∧
      (booted [1101, int64Max, 1, 5]).target 2 .position = some 5 ∧
      decode ((booted [1101, int64Max, 1, 5]).mem.read 0) = .ok (.add .immediate .immediate .position)) ∧
    (Ready (.mul .immediate .immediate .position) (booted [1102, int64Min, -1, 5]) ∧
      (booted [1102, int64Min, -1, 5]).target 2 .position = some 5 ∧
      decode ((booted [1102, int64Min, -1, 5]).mem.read 0) = .ok (.mul .immediate .immediate .position)) ∧
    (Ready (.arb .immediate 0 0) { booted [109, 1] with rb := wordOfInt int64Max } ∧
      decode ((booted [109, 1]).mem.read 0) = .ok (.arb .immediate 0 0)) :=
  ⟨⟨step_answers _, fun _ h => by cases h⟩, ⟨ready_intro (by decide), by decide, by decide⟩,
    ⟨ready_intro (by decide), by decide, by decide⟩, ready_intro (by decide), by decide⟩

/-- R201: `INT64_MIN × (−1)` gives INT64_MIN under wrap; R17: `INT64_MAX + 1` as a relative base does too. -/
theorem test_wrapped_results :
    (steppedIn wrapping (booted [1102, int64Min, -1, 5])).mem.read 5 = wordOfInt int64Min ∧
      (steppedIn wrapping { booted [109, 1] with rb := wordOfInt int64Max }).rb = wordOfInt int64Min := by decide

theorem witness_FullBoundedOutputHolds :
    (({ booted [104, 7] with outQ := [.value 1] } : State).outGone = false ∧
      ({ booted [104, 7] with outQ := [.value 1] } : State).outQ.length = 1 ∧
      Ready (.out .immediate 0 0) { booted [104, 7] with outQ := [.value 1] } ∧
      decode (({ booted [104, 7] with outQ := [.value 1] } : State).mem.read 0) = .ok (.out .immediate 0 0)) ∧
    (Ready (.hlt 0 0 0) { booted [99] with outQ := [.value 1] } ∧
      decode (({ booted [99] with outQ := [.value 1] } : State).mem.read 0) = .ok (.hlt 0 0 0)) :=
  ⟨⟨rfl, rfl, ready_intro (by decide), by decide⟩, ready_intro (by decide), by decide⟩

theorem witness_FetchPastCapacityFaults :
    ({ booted [99] with pc := 10 } : State).status = .running ∧ 0 ≤ ({ booted [99] with pc := 10 } : State).pc.toInt ∧
      ((10 : Nat) : Int) ≤ ({ booted [99] with pc := 10 } : State).pc.toInt := by decide

theorem witness_DriverOperations :
    (booted [99]).inClosed = false ∧ (Driver.close (booted [99])).inClosed = true ∧
      ({ booted [99] with outQ := [.value 1] } : State).outQ = .value 1 :: [] ∧
      ((booted [99]).outQ = [] ∧ (booted [99]).status = .running) ∧
      ((stepped (booted [0])).outQ = [] ∧ (stepped (booted [0])).status ≠ .running) := by decide

theorem witness_DriverKeepsInvariant :
    (booted [99]).Inv ∧ Driver.send 5 (booted [99]) = .next { booted [99] with inQ := [5] } ∧
      ({ booted [99] with outQ := [.value 1] } : State).Inv ∧
      Driver.receive { booted [99] with outQ := [.value 1] } = .item (.value 1) (booted [99]) := by
  refine ⟨⟨by decide, by decide, by decide, by decide, by decide, by decide, by decide, ?_⟩, rfl,
    ⟨by decide, by decide, by decide, by decide, by decide, by decide, by decide, ?_⟩, by decide⟩
  · intro c fpc h; cases h
  · intro c fpc h; cases h

theorem witness_SendCommutesWithStep :
    held { booted [3, 0] with inQ := [7] } = false ∧
      step { booted [3, 0] with inQ := [7] } = .next (stepped { booted [3, 0] with inQ := [7] }) ∧
      Driver.send 5 { booted [3, 0] with inQ := [7] } = .next { booted [3, 0] with inQ := [7, 5] } :=
  ⟨by decide, step_answers _, rfl⟩

theorem witness_HoldLiftedBySendOrClose :
    held { booted [3, 0] with outQ := [.value 1] } = true ∧
      Driver.send 5 { booted [3, 0] with outQ := [.value 1] } = .next { booted [3, 0] with outQ := [.value 1], inQ := [5] } ∧
      Driver.receive { booted [3, 0] with outQ := [.value 1] } = .item (.value 1) (booted [3, 0]) :=
  ⟨by decide, rfl, by decide⟩

theorem witness_InstancesArePrivate :
    (pair .ready false [.value 5] .running).move Config.hw (.relay 0) =
        some (((pair .ready false [.value 5] .running).setInstance 0 (booted [99])).setRelay 0
          { src := 0, dst := 1, feedback := false, phase := .carrying 5, last := some 5 }) ∧
      (Move.relay 0 ≠ Move.engine 1) ∧
      (pair .ready false [.value 5] .running).instances[1]? = some (booted [3, 0, 99]) ∧
      (pair .stopped true [] .running).instances[1]? = (pair .ready false [.value 5] .running).instances[1]? := by decide

/-- The phase of relay 0, the queue and status of its source and the open bit of its destination. -/
def relayView (n : Network) : Option (RelayPhase × List OutItem × Status × Bool) :=
  match n.relays[0]?, n.instances[0]?, n.instances[1]? with
  | some x, some s, some d => some (x.phase, s.outQ, s.status, d.inClosed)
  | _, _, _ => none

theorem witness_RelayOperations :
    relayView (pair .ready false [.value 5] .running) = some (.ready, [.value 5], .running, false) ∧
      relayView (pair .ready true [.haltSentinel] .halted) = some (.ready, [.haltSentinel], .halted, false) ∧
      relayView (pair .ready false [] .halted) = some (.ready, [], .halted, false) ∧
      relayView (pair .ready false [] .running) = some (.ready, [], .running, false) ∧
      relayView (pair (.carrying 5) false [] .running) = some (.carrying 5, [], .running, false) ∧
      relayView { pair (.carrying 5) false [] .running with
        instances := [booted [99], { booted [3, 0, 99] with inClosed := true }] } =
          some (.carrying 5, [], .running, true) ∧
      relayView (pair .closing false [] .running) = some (.closing, [], .running, false) ∧
      relayView (pair .stopped false [] .running) = some (.stopped, [], .running, false) :=
  ⟨by decide, by decide, by decide, by decide, by decide, by decide, by decide, by decide⟩

end Sys2Proof.Tests
end

section
/-! O22: an instance whose run has ended stays as it is (R37). -/

namespace Sys2Proof.Machine

/-- A run from an ended state answers that state, since each of its steps does. -/
theorem core_run_ended {s : State} (hs : s.status ≠ .running) : ∀ k : Nat, core.run k s = .next s
  | 0 => rfl
  | k + 1 => by
    rw [core_run_succ, step_ended hs]
    exact core_run_ended hs k

/-- Settles O22: a run from an ended state answers only that state. -/
theorem endedInstanceNeverChanges : Obligations.EndedInstanceNeverChanges := by
  intro k s t hs hrun
  rw [core_run_ended hs k] at hrun
  cases hrun
  rfl

end Sys2Proof.Machine
end

section
/-! O59: the inner components of an instance, those that are no endpoint (R47). The endpoint operations
keep them, every move but an engine's is made of endpoint operations, and an engine's move is a function of its own instance,
put back in its own place. -/

namespace Sys2Proof.Machine

/-! ### The components that are no endpoint -/

/-- R47: `t` has the memory, `mem_len`, `pc`, `rb` and `status` of `s`. -/
def SamePrivate (s t : State) : Prop :=
  t.mem = s.mem ∧ t.memLen = s.memLen ∧ t.pc = s.pc ∧ t.rb = s.rb ∧ t.status = s.status

theorem SamePrivate.refl (s : State) : SamePrivate s s := ⟨rfl, rfl, rfl, rfl, rfl⟩

theorem Driver.close_samePrivate (s : State) : SamePrivate s (Driver.close s) := ⟨rfl, rfl, rfl, rfl, rfl⟩

theorem Driver.disconnect_samePrivate (s : State) : SamePrivate s (Driver.disconnect s) := ⟨rfl, rfl, rfl, rfl, rfl⟩

theorem Driver.send_samePrivate {v : Word} {s t : State} (h : Driver.send v s = .next t) : SamePrivate s t := by
  unfold Driver.send at h
  split at h <;> cases h
  exact ⟨rfl, rfl, rfl, rfl, rfl⟩

theorem Driver.receive_samePrivate {x : OutItem} {s t : State} (h : Driver.receive s = .item x t) : SamePrivate s t := by
  unfold Driver.receive at h
  split at h
  · cases h
    exact ⟨rfl, rfl, rfl, rfl, rfl⟩
  · split at h <;> cases h

/-! ### Networks that keep an instance's inner components -/

/-- From `n` to `n'`, the inner components of instance `i` are kept, where there is such an instance. -/
def Network.KeepsPrivate (i : Nat) (n n' : Network) : Prop :=
  ∀ s, n.instances[i]? = some s → ∃ t, n'.instances[i]? = some t ∧ SamePrivate s t

/-- Only the list of instances matters. -/
theorem Network.KeepsPrivate.of_instances_eq {i : Nat} {n n' : Network} (h : n'.instances = n.instances) :
    n.KeepsPrivate i n' := by
  intro s hs
  exact ⟨s, h ▸ hs, .refl s⟩

/-- Another instance replaced, by whatever state. -/
theorem Network.KeepsPrivate.setInstance_of_ne {i j : Nat} (hij : j ≠ i) (n : Network) (t : State) :
    n.KeepsPrivate i (n.setInstance j t) := by
  intro s hs
  exact ⟨s, (List.getElem?_set_ne hij).trans hs, .refl s⟩

/-- An instance replaced by one with the same inner components. -/
theorem Network.KeepsPrivate.setInstance {n : Network} {j : Nat} {u t : State} (hu : n.instances[j]? = some u)
    (h : SamePrivate u t) (i : Nat) : n.KeepsPrivate i (n.setInstance j t) := by
  intro s hs
  by_cases hij : j = i
  · subst hij
    obtain ⟨hlt, -⟩ := List.getElem?_eq_some_iff.mp hs
    obtain rfl : u = s := Option.some.inj (hu.symm.trans hs)
    exact ⟨t, List.getElem?_set_self hlt, h⟩
  · exact Network.KeepsPrivate.setInstance_of_ne hij n t s hs

/-- A new instance starts beside the others (R341). -/
theorem Network.KeepsPrivate.append (n : Network) (new : List State) (i : Nat) :
    n.KeepsPrivate i { n with instances := n.instances ++ new } := by
  intro s hs
  obtain ⟨hlt, -⟩ := List.getElem?_eq_some_iff.mp hs
  exact ⟨s, (List.getElem?_append_left hlt).trans hs, .refl s⟩

/-! ### The moves of the driver and of the relays -/

theorem Network.sendTo_keepsPrivate {n n' : Network} {j : Nat} {v : Word} (h : n.sendTo j v = some n') (i : Nat) :
    n.KeepsPrivate i n' := by
  unfold Network.sendTo at h
  split at h
  · cases h
  next s hs =>
  split at h <;> cases h
  next t ht => exact .setInstance hs (Driver.send_samePrivate ht) i

theorem Network.closeInput_keepsPrivate {n n' : Network} {j : Nat} (h : n.closeInput j = some n') (i : Nat) :
    n.KeepsPrivate i n' := by
  obtain ⟨s, hs, rfl⟩ := Option.map_eq_some_iff.mp h
  exact .setInstance hs (Driver.close_samePrivate s) i

theorem Network.disconnectFrom_keepsPrivate {n n' : Network} {j : Nat} (h : n.disconnectFrom j = some n') (i : Nat) :
    n.KeepsPrivate i n' := by
  obtain ⟨s, hs, rfl⟩ := Option.map_eq_some_iff.mp h
  exact .setInstance hs (Driver.disconnect_samePrivate s) i

theorem Network.receiveFrom_keepsPrivate {n n' : Network} {j : Nat} (h : n.receiveFrom j = some n') (i : Nat) :
    n.KeepsPrivate i n' := by
  unfold Network.receiveFrom at h
  split at h
  · cases h
  next s hs =>
  split at h <;> cases h
  next x t ht => exact Network.KeepsPrivate.setInstance hs (Driver.receive_samePrivate ht) i
  · exact .of_instances_eq rfl

/-- A relay receives from one instance, sends to another or closes its input (R342); what it notes of itself and of the
items received is no instance's state. -/
theorem Network.relayMove_keepsPrivate {n n' : Network} {r : Nat} (h : n.relayMove r = some n') (i : Nat) :
    n.KeepsPrivate i n' := by
  unfold Network.relayMove at h
  split at h
  · cases h
  next x _ =>
  split at h
  case h_1 =>
    split at h
    · cases h
    next s hs =>
    split at h <;> cases h
    next v t ht => exact Network.KeepsPrivate.setInstance hs (Driver.receive_samePrivate ht) i
    next t ht => exact Network.KeepsPrivate.setInstance hs (Driver.receive_samePrivate ht) i
    · exact .of_instances_eq rfl
  case h_2 v _ =>
    obtain ⟨m, hm, rfl⟩ := Option.map_eq_some_iff.mp h
    exact Network.sendTo_keepsPrivate hm i
  case h_3 =>
    split at h <;> cases h
    next s hs => exact Network.KeepsPrivate.setInstance hs (Driver.close_samePrivate s) i
  case h_4 => cases h

/-! ### The moves of an engine -/

/-- The state after a step of one instance by itself; `none` where its step is not enabled (R37, R338). -/
def enabledStep (cfg : Config) (s : State) : Option State :=
  if s.status.ended || heldIn cfg s then none
  else
    match stepIn cfg s with
    | .next t => some t
    | .fault _ => none
    | .refused _ => none

/-- An engine's move is the step of its instance by itself, put back in its place. -/
theorem Network.engineMove_eq (cfg : Config) (n : Network) (i : Nat) :
    n.engineMove cfg i = (n.instances[i]?).bind (fun s => (enabledStep cfg s).map (n.setInstance i)) := by
  unfold Network.engineMove
  cases n.instances[i]? with
  | none => rfl
  | some s =>
    simp only [Option.bind_some, enabledStep]
    split
    · rfl
    · cases stepIn cfg s <;> rfl

theorem Network.engineMove_keepsPrivate {cfg : Config} {n n' : Network} {i j : Nat} (hij : j ≠ i)
    (h : n.engineMove cfg j = some n') : n.KeepsPrivate i n' := by
  rw [Network.engineMove_eq] at h
  obtain ⟨s, -, h⟩ := Option.bind_eq_some_iff.mp h
  obtain ⟨t, -, rfl⟩ := Option.map_eq_some_iff.mp h
  exact .setInstance_of_ne hij n t

/-- What an engine's move makes of its instance is a function of that instance. -/
theorem Network.engineMove_instance (cfg : Config) (n : Network) (i : Nat) :
    (n.engineMove cfg i).bind (fun n' => n'.instances[i]?) = (n.instances[i]?).bind (enabledStep cfg) := by
  rw [Network.engineMove_eq]
  cases hs : n.instances[i]? with
  | none => rfl
  | some s =>
    obtain ⟨hlt, -⟩ := List.getElem?_eq_some_iff.mp hs
    cases he : enabledStep cfg s with
    | none => simp [he]
    | some t => simp [he, hlt]

/-! ### All moves -/

/-- R47: a move that is not the own step of instance `i` keeps its inner components. -/
theorem Network.move_keepsPrivate {cfg : Config} {m : Move} {n n' : Network} {i : Nat} (h : n.move cfg m = some n')
    (hm : m ≠ .engine i) : n.KeepsPrivate i n' := by
  cases m with
  | construct program =>
    cases h
    exact .append n [_] i
  | engine j => exact Network.engineMove_keepsPrivate (fun hij => hm (hij ▸ rfl)) h
  | relay r => exact Network.relayMove_keepsPrivate (Option.ite_none_right_eq_some.mp h).2 i
  | send j v => exact Network.sendTo_keepsPrivate (Option.ite_none_right_eq_some.mp h).2 i
  | close j => exact Network.closeInput_keepsPrivate (Option.ite_none_right_eq_some.mp h).2 i
  | receive j => exact Network.receiveFrom_keepsPrivate (Option.ite_none_right_eq_some.mp h).2 i
  | disconnect j => exact Network.disconnectFrom_keepsPrivate (Option.ite_none_right_eq_some.mp h).2 i

/-- Settles O59: all moves but the own step keep the inner components, and the own step is a function of the instance. -/
theorem instancesArePrivate : Obligations.InstancesArePrivate := by
  refine ⟨fun cfg m n n' i s h hm hs => Network.move_keepsPrivate h hm s hs, fun cfg i n m hnm => ?_⟩
  calc (n.engineMove cfg i).bind (fun n' => n'.instances[i]?)
      = (n.instances[i]?).bind (enabledStep cfg) := Network.engineMove_instance cfg n i
    _ = (m.instances[i]?).bind (enabledStep cfg) := by rw [hnm]
    _ = (m.engineMove cfg i).bind (fun m' => m'.instances[i]?) := (Network.engineMove_instance cfg m i).symm

end Sys2Proof.Machine
end

section
/-! O10: the checks and the growth of an access to memory, at any configuration (R62 to R65). Both accesses answer what
`checkAddress` answers, so each of its outcomes is stated once, and each access is given by that outcome. -/

namespace Sys2Proof.Machine

/-! ### The outcomes of the address check past the first one, `checkAddress_neg` -/

theorem checkAddress_past_capacity {cfg : Config} {a : Word} {n : Nat} (hcap : cfg.memCapacity = some n)
    (h : (n : Int) ≤ a.toInt) : checkAddress cfg a = .error .capacityExceeded := by
  have h0 : 0 ≤ a.toInt := by omega
  have hn : n ≤ a.toNat := by have := word_toNat_eq h0; omega
  simp [checkAddress, not_lt.mpr h0, hcap, hn]

theorem checkAddress_within {cfg : Config} {a : Word} (h0 : 0 ≤ a.toInt)
    (hcap : ∀ n, cfg.memCapacity = some n → a.toInt < n) : checkAddress cfg a = .ok () := by
  cases hc : cfg.memCapacity with
  | none => simp [checkAddress, not_lt.mpr h0, hc]
  | some n =>
    have hn : ¬ n ≤ a.toNat := by have := word_toNat_eq h0; have := hcap n hc; omega
    simp [checkAddress, not_lt.mpr h0, hc, hn]

/-! ### An access by the outcome of its check -/

theorem memRead_of_check_error {cfg : Config} {a : Word} {c : FaultCode} (h : checkAddress cfg a = .error c) (s : State) :
    memRead cfg a s = .error c := by
  simp [memRead, h]

theorem memWrite_of_check_error {cfg : Config} {a : Word} {c : FaultCode} (h : checkAddress cfg a = .error c) (v : Word)
    (s : State) : memWrite cfg a v s = .error c := by
  simp [memWrite, h]

/-- Growth takes the address in and never shrinks (R64, R66). -/
theorem State.touch_eq_max (s : State) (a : Nat) : s.touch a = { s with memLen := max s.memLen (a + 1) } := by
  have hlen : (if s.memLen ≤ a then a + 1 else s.memLen) = max s.memLen (a + 1) := by split <;> omega
  rw [State.touch, hlen]

theorem memRead_of_check_ok {cfg : Config} {a : Word} (h : checkAddress cfg a = .ok ()) (s : State) :
    memRead cfg a s = .ok (s.mem.read a.toNat, { s with memLen := max s.memLen (a.toNat + 1) }) := by
  simp [memRead, h, State.touch_eq_max]

theorem memWrite_of_check_ok {cfg : Config} {a : Word} (h : checkAddress cfg a = .ok ()) (v : Word) (s : State) :
    memWrite cfg a v s = .ok { s with mem := s.mem.write a.toNat v, memLen := max s.memLen (a.toNat + 1) } := by
  simp [memWrite, h, State.touch_eq_max, State.setMem]

/-! ### A read past the end -/

theorem Memory.read_past_end {m : Memory} {len a : Nat} (hlisted : ∀ c ∈ m, c.1 < len) (ha : len ≤ a) :
    m.read a = 0#64 :=
  Memory.read_unlisted fun c hc => ((hlisted c hc).trans_le ha).ne

/-- Settles O10, by the three outcomes of the address check and the cells that are listed. -/
theorem memoryAccessChecks : Obligations.MemoryAccessChecks := by
  intro cfg s a v
  refine ⟨fun hneg => ?_, fun n hcap _ hpast => ?_, fun h0 hcap => ?_, Memory.read_past_end⟩
  · have hc := checkAddress_neg cfg hneg
    exact ⟨memRead_of_check_error hc s, memWrite_of_check_error hc v s⟩
  · have hc := checkAddress_past_capacity hcap hpast
    exact ⟨memRead_of_check_error hc s, memWrite_of_check_error hc v s⟩
  · have hc := checkAddress_within h0 hcap
    exact ⟨memRead_of_check_ok hc s, memWrite_of_check_ok hc v s⟩

end Sys2Proof.Machine
end

section
/-! O8: the value of a read parameter, at any configuration (R17, R121 to R123). A wrapping ALU answers the low 64 bits of
the exact result, so a wrapping relative address is the machine sum `rb + P`; each relative read is then given by the
outcome of its address. -/

namespace Sys2Proof.Machine

/-! ### The ALU by its overflow setting -/

/-- `wrap64` moves its argument by a multiple of 2^64. -/
@[simp] theorem wordOfInt_wrap64 (x : Int) : wordOfInt (wrap64 x) = wordOfInt x := by
  apply BitVec.eq_of_toNat_eq
  simp only [wordOfInt, wrap64, BitVec.toNat_ofInt]
  omega

theorem wordOfInt_add_toInt (a b : Word) : wordOfInt (a.toInt + b.toInt) = a + b := by
  rw [wordOfInt, BitVec.ofInt_add, BitVec.ofInt_toInt, BitVec.ofInt_toInt]

theorem alu_trap_out {cfg : Config} {x : Int} (ht : cfg.overflow = .trap) (h : ¬ InInt64 x) :
    alu cfg x = .error .arithmeticOverflow := by
  simp only [alu, if_neg h, ht]

/-- A wrapping ALU always answers, in int64 or out of it. -/
theorem alu_wrap {cfg : Config} (hw : cfg.overflow = .wrap) (x : Int) : alu cfg x = .ok (wordOfInt x) := by
  by_cases h : InInt64 x
  · exact alu_in h
  · simp only [alu, if_neg h, hw, wordOfInt_wrap64]

theorem relativeAddress_wrap {cfg : Config} (hw : cfg.overflow = .wrap) (p : Word) (s : State) :
    relativeAddress cfg p s = .ok (s.rb + p) := by
  rw [relativeAddress, alu_wrap hw, wordOfInt_add_toInt]

/-! ### A relative read by the outcome of its address -/

theorem operandValue_relative_ok {cfg : Config} {p a : Word} {s : State} (h : relativeAddress cfg p s = .ok a) :
    operandValue cfg .relative p s = memRead cfg a s := by
  simp only [operandValue, h]

theorem operandValue_relative_error {cfg : Config} {p : Word} {s : State} {c : FaultCode}
    (h : relativeAddress cfg p s = .error c) : operandValue cfg .relative p s = .error c := by
  simp only [operandValue, h]

/-- Settles O8, mode by mode; a relative read by whether its sum is in int64, and if not, by the overflow setting. -/
theorem operandResolution : Obligations.OperandResolution := by
  intro cfg p s
  have hexact (hin : InInt64 (s.rb.toInt + p.toInt)) :
      operandValue cfg .relative p s = memRead cfg (wordOfInt (s.rb.toInt + p.toInt)) s :=
    operandValue_relative_ok (alu_in hin)
  have hwrapped (hw : cfg.overflow = .wrap) : operandValue cfg .relative p s = memRead cfg (s.rb + p) s :=
    operandValue_relative_ok (relativeAddress_wrap hw p s)
  refine ⟨rfl, fun hneg => memRead_neg cfg hneg s, hexact, fun hout ht => ?_, fun _ hw => hwrapped hw, fun hin hneg => ?_,
    fun hw hneg => ?_, rfl⟩
  · exact operandValue_relative_error (alu_trap_out ht hout)
  · rw [hexact hin, memRead_neg cfg (by rwa [toInt_wordOfInt hin])]
  · rw [hwrapped hw, memRead_neg cfg hneg]

end Sys2Proof.Machine
end

section
/-! O36: Output once its consumer is gone (R232). The offer leaves the state as the operand reads left it, so only the growth
of `mem_len` and the advance of `pc` remain. -/

namespace Sys2Proof.Machine

/-- No bound of the buffer holds an Output whose consumer is gone: the offer discards before it looks at the buffer. -/
theorem outEffect_gone {cfg : Config} {m0 : Mode} {d1 d2 : Digit} {s : State} (hm : cfg.memCapacity = none)
    (ho : cfg.overflow = .trap) (hready : Ready (.out m0 d1 d2) s) (hgone : s.outGone = true) :
    outEffect cfg m0 s =
      .ok (some (({ s with memLen := grown s.memLen (s.reach (.out m0 d1 d2)) } : State).advance 2)) := by
  have hdiscard : offerOutput cfg (.value (s.operand 0 m0)) { s with memLen := grown s.memLen (s.reach (.out m0 d1 d2)) } =
      some { s with memLen := grown s.memLen (s.reach (.out m0 d1 d2)) } := offerOutput_gone hgone
  rw [outEffect_ready hm ho hready, hdiscard, Option.map_some]

/-- Settles O36: the effect on this hardware, settled. -/
theorem outputDiscardsWhenGone : Obligations.OutputDiscardsWhenGone := by
  intro m0 d1 d2 s hready hgone
  have heffect : instrEffect Config.hw (.out m0 d1 d2) s = outEffect Config.hw m0 s := rfl
  rw [exec_eq, heffect, outEffect_gone rfl rfl hready hgone]
  rfl

end Sys2Proof.Machine
end

section
/-! O1, O2: the decoder and the encoder are inverse (R101 to R118, R142). Each format's reading of the three mode digits is
inverted once; a word then decodes to an instruction exactly if the instruction is legal and encodes to the word, and both
statements are the two directions of that. -/

namespace Sys2Proof.Machine

/-! ### Digits and modes -/

theorem modeOfDigit_eq_some {d : Digit} {m : Mode} : modeOfDigit d = some m ↔ digitOfMode m = d := by
  cases m <;> revert d <;> decide

@[simp] theorem modeOfDigit_digitOfMode (m : Mode) : modeOfDigit (digitOfMode m) = some m :=
  modeOfDigit_eq_some.mpr rfl

/-! ### What each format accepts -/

theorem decodeRRW_eq_ok {mk : Mode → Mode → Mode → Instr} {d0 d1 d2 : Digit} {i : Instr} :
    decodeRRW mk d0 d1 d2 = .ok i ↔
      ∃ m0 m1 m2, (digitOfMode m0, digitOfMode m1, digitOfMode m2) = (d0, d1, d2) ∧ m2.writable = true ∧ mk m0 m1 m2 = i := by
  constructor
  · intro h
    unfold decodeRRW at h
    split at h
    next m0 m1 m2 h0 h1 h2 =>
      split at h <;> cases h
      next hw =>
        exact ⟨m0, m1, m2, by rw [modeOfDigit_eq_some.mp h0, modeOfDigit_eq_some.mp h1, modeOfDigit_eq_some.mp h2], hw, rfl⟩
    · cases h
  · rintro ⟨m0, m1, m2, hd, hw, rfl⟩
    cases hd
    simp [decodeRRW, hw]

theorem decodeRR_eq_ok {cfg : Config} {mk : Mode → Mode → Digit → Instr} {d0 d1 d2 : Digit} {i : Instr} :
    decodeRR cfg mk d0 d1 d2 = .ok i ↔
      ∃ m0 m1, (digitOfMode m0, digitOfMode m1) = (d0, d1) ∧ cfg.unusedOk d2 = true ∧ mk m0 m1 d2 = i := by
  constructor
  · intro h
    unfold decodeRR at h
    split at h
    next m0 m1 h0 h1 =>
      split at h <;> cases h
      next hu => exact ⟨m0, m1, by rw [modeOfDigit_eq_some.mp h0, modeOfDigit_eq_some.mp h1], hu, rfl⟩
    · cases h
  · rintro ⟨m0, m1, hd, hu, rfl⟩
    cases hd
    simp [decodeRR, hu]

theorem decodeR_eq_ok {cfg : Config} {mk : Mode → Digit → Digit → Instr} {d0 d1 d2 : Digit} {i : Instr} :
    decodeR cfg mk d0 d1 d2 = .ok i ↔
      ∃ m0, digitOfMode m0 = d0 ∧ (cfg.unusedOk d1 && cfg.unusedOk d2) = true ∧ mk m0 d1 d2 = i := by
  constructor
  · intro h
    unfold decodeR at h
    split at h
    next m0 h0 =>
      split at h <;> cases h
      next hu => exact ⟨m0, modeOfDigit_eq_some.mp h0, hu, rfl⟩
    · cases h
  · rintro ⟨m0, rfl, hu, rfl⟩
    simp only [decodeR, modeOfDigit_digitOfMode, hu, if_true]

theorem decodeW_eq_ok {cfg : Config} {mk : Mode → Digit → Digit → Instr} {d0 d1 d2 : Digit} {i : Instr} :
    decodeW cfg mk d0 d1 d2 = .ok i ↔
      ∃ m0, digitOfMode m0 = d0 ∧ (m0.writable && cfg.unusedOk d1 && cfg.unusedOk d2) = true ∧ mk m0 d1 d2 = i := by
  constructor
  · intro h
    unfold decodeW at h
    split at h
    next m0 h0 =>
      split at h <;> cases h
      next hu => exact ⟨m0, modeOfDigit_eq_some.mp h0, hu, rfl⟩
    · cases h
  · rintro ⟨m0, rfl, hu, rfl⟩
    simp only [decodeW, modeOfDigit_digitOfMode, hu, if_true]

theorem decodeNone_eq_ok {cfg : Config} {mk : Digit → Digit → Digit → Instr} {d0 d1 d2 : Digit} {i : Instr} :
    decodeNone cfg mk d0 d1 d2 = .ok i ↔
      (cfg.unusedOk d0 && cfg.unusedOk d1 && cfg.unusedOk d2) = true ∧ mk d0 d1 d2 = i := by
  unfold decodeNone
  split <;> simp_all

/-! ### What each opcode accepts -/

/-- What an opcode makes of three digits is a legal instruction with that opcode and those digits (R105, R114, R115). -/
theorem decodeOpcode_sound {cfg : Config} {op : Nat} {build : Digit → Digit → Digit → Except FaultCode Instr}
    {d0 d1 d2 : Digit} {i : Instr} (hop : decodeOpcode cfg op = some build) (h : build d0 d1 d2 = .ok i) :
    i.wfIn cfg = true ∧ i.opcode = op ∧ i.digits = (d0, d1, d2) := by
  unfold decodeOpcode at hop
  split at hop <;> cases hop
  case h_1 | h_2 | h_7 | h_8 =>
    obtain ⟨m0, m1, m2, hd, hw, rfl⟩ := decodeRRW_eq_ok.mp h
    exact ⟨hw, rfl, hd⟩
  case h_3 =>
    obtain ⟨m0, rfl, hu, rfl⟩ := decodeW_eq_ok.mp h
    exact ⟨hu, rfl, rfl⟩
  case h_4 | h_9 =>
    obtain ⟨m0, rfl, hu, rfl⟩ := decodeR_eq_ok.mp h
    exact ⟨hu, rfl, rfl⟩
  case h_5 | h_6 =>
    obtain ⟨m0, m1, hd, hu, rfl⟩ := decodeRR_eq_ok.mp h
    cases hd
    exact ⟨hu, rfl, rfl⟩
  case h_10 =>
    obtain ⟨hu, rfl⟩ := decodeNone_eq_ok.mp h
    exact ⟨hu, rfl, rfl⟩

/-- Every legal instruction is what its opcode makes of its digits. -/
theorem decodeOpcode_complete {cfg : Config} {i : Instr} (h : i.wfIn cfg = true) :
    ∃ build, decodeOpcode cfg i.opcode = some build ∧ build i.digits.1 i.digits.2.1 i.digits.2.2 = .ok i := by
  cases i with
  | add m0 m1 m2 | mul m0 m1 m2 | lt m0 m1 m2 | eq m0 m1 m2 =>
    exact ⟨_, rfl, decodeRRW_eq_ok.mpr ⟨m0, m1, m2, rfl, h, rfl⟩⟩
  | inp m0 d1 d2 => exact ⟨_, rfl, decodeW_eq_ok.mpr ⟨m0, rfl, h, rfl⟩⟩
  | out m0 d1 d2 | arb m0 d1 d2 => exact ⟨_, rfl, decodeR_eq_ok.mpr ⟨m0, rfl, h, rfl⟩⟩
  | jt m0 m1 d2 | jf m0 m1 d2 => exact ⟨_, rfl, decodeRR_eq_ok.mpr ⟨m0, m1, rfl, h, rfl⟩⟩
  | hlt d0 d1 d2 => exact ⟨_, rfl, decodeNone_eq_ok.mpr ⟨h, rfl⟩⟩

/-! ### The instruction word -/

theorem encodedWord (i : Instr) : Laws.EncodedWord.Statement i :=
  Laws.EncodedWord.of_fields (by cases i <;> simp [Instr.opcode])

/-- A word of at most five digits is the word of the instruction that has its fields (R101). -/
theorem encode_eq_of_fields {w : Word} {i : Instr} (hlt : w.toNat < 100000) (hop : i.opcode = low2 w.toNat)
    (hd : i.digits = (digit w.toNat 2, digit w.toNat 3, digit w.toNat 4)) : encode i = w := by
  apply BitVec.eq_of_toNat_eq
  simp only [encode, hop, hd, low2, digit, BitVec.toNat_ofNat]
  have hthousands : w.toNat / 10 ^ 3 = w.toNat / 10 ^ 2 / 10 := by omega
  have htenThousands : w.toNat / 10 ^ 4 = w.toNat / 10 ^ 3 / 10 := by omega
  have hlast : w.toNat / 10 ^ 4 % 10 = w.toNat / 10 ^ 4 := Nat.mod_eq_of_lt (by omega)
  omega

theorem encode_toInt (i : Instr) : (encode i).toInt = (encode i).toNat := by
  obtain ⟨hlt, -⟩ := encodedWord i
  exact BitVec.toInt_eq_toNat_of_lt (by omega)

/-- If decode answers, the word passed the checks on its value and its opcode made the instruction of its digits (R130). -/
theorem decodeIn_ok {cfg : Config} {w : Word} {i : Instr} (h : decodeIn cfg w = .ok i) :
    w.toNat < 100000 ∧ ∃ build, decodeOpcode cfg (low2 w.toNat) = some build ∧
      build (digit w.toNat 2) (digit w.toNat 3) (digit w.toNat 4) = .ok i := by
  unfold decodeIn at h
  split at h
  · cases h
  split at h
  · cases h
  next build hop =>
  split at h
  · cases h
  · exact ⟨by omega, build, hop, h⟩

/-- Past the checks on its value, a word decodes to what its opcode makes of its digits (R130). -/
theorem decodeIn_eq_build {cfg : Config} {w : Word} {build : Digit → Digit → Digit → Except FaultCode Instr}
    (h0 : 0 ≤ w.toInt) (hlt : w.toNat < 100000) (hop : decodeOpcode cfg (low2 w.toNat) = some build) :
    decodeIn cfg w = build (digit w.toNat 2) (digit w.toNat 3) (digit w.toNat 4) := by
  simp only [decodeIn, if_neg (not_lt.mpr h0), hop, if_neg (not_le.mpr hlt)]

/-- A word decodes to an instruction exactly if it is the word of that instruction and the instruction is legal. -/
theorem decodeIn_eq_ok_iff {cfg : Config} {w : Word} {i : Instr} :
    decodeIn cfg w = .ok i ↔ i.wfIn cfg = true ∧ encode i = w := by
  constructor
  · intro h
    obtain ⟨hlt, build, hop, hb⟩ := decodeIn_ok h
    obtain ⟨hwf, hopcode, hdigits⟩ := decodeOpcode_sound hop hb
    exact ⟨hwf, encode_eq_of_fields hlt hopcode hdigits⟩
  · rintro ⟨hwf, rfl⟩
    obtain ⟨hlt, hlow, h2, h3, h4⟩ := encodedWord i
    obtain ⟨build, hop, hb⟩ := decodeOpcode_complete hwf
    rw [decodeIn_eq_build (by rw [encode_toInt]; omega) hlt (by rw [hlow, hop]), h2, h3, h4, hb]

/-- Settles O1: an instruction's own word is one that decodes to it. -/
theorem decodeInvertsEncode : Obligations.DecodeInvertsEncode :=
  fun _ _ hwf => decodeIn_eq_ok_iff.mpr ⟨hwf, rfl⟩

/-- Settles O2: the other direction. -/
theorem encodeInvertsDecode : Obligations.EncodeInvertsDecode :=
  fun _ _ _ h => decodeIn_eq_ok_iff.mp h

end Sys2Proof.Machine
end

section
/-! O11, O24, O25, O27, O50 and O54: what any step keeps. A step under a configuration is a settled effect or, after the end,
nothing; so each of these is read off the fault the step enters or the frame of its effect (`EffectFrame`). -/

namespace Sys2Proof.Machine

/-! ### The cases of a step under a configuration -/

theorem stepIn_ended {cfg : Config} {s : State} (h : s.status ≠ .running) : stepIn cfg s = .next s := by
  unfold stepIn
  split
  · contradiction
  · rfl
  · rfl

/-- Settles O54: the two settle the same effect while the instance runs, and leave an ended one alone. -/
theorem machineIsVariantAtHardware : Obligations.MachineIsVariantAtHardware := by
  intro s
  by_cases hr : s.status = .running
  · rw [stepIn_running hr, step_running hr]
  · rw [stepIn_ended hr, step_ended hr]

/-- An effect of a step is the effect of the instruction decoded at `pc`, so it has that instruction's frame. -/
theorem stepEffect_frame {cfg : Config} {s t : State} (h : stepEffect cfg s = .ok (some t)) :
    ∃ i, decodeIn cfg (s.mem.read s.pc.toNat) = .ok i ∧ EffectFrame cfg i s t := by
  obtain ⟨i, w, -, rfl, hi, he⟩ := stepEffect_ok h
  exact ⟨i, hi, instrEffect_frame he⟩

/-- An effect enters no fault: `status` is as before, or Halted. -/
theorem EffectFrame.status_ne_faulted {cfg : Config} {i : Instr} {s t : State} (f : EffectFrame cfg i s t)
    (hr : s.status = .running) (c : FaultCode) (fpc : Word) : t.status ≠ .faulted c fpc := by
  rcases f.status with h | ⟨h, -⟩ <;> simp [h, hr]

/-- A step that ends in a fault has entered it, with nothing else changed. -/
theorem stepIn_faulted {cfg : Config} {s t : State} {c : FaultCode} {fpc : Word} (hr : s.status = .running)
    (h : stepIn cfg s = .next t) (ht : t.status = .faulted c fpc) : stepEffect cfg s = .error c ∧ t = enterFault c s := by
  rw [stepIn_running hr] at h
  rcases settle_cases h with ⟨d, he, rfl⟩ | ⟨-, rfl⟩ | he
  · cases ht
    exact ⟨he, rfl⟩
  · rw [hr] at ht
    cases ht
  · obtain ⟨i, -, f⟩ := stepEffect_frame he
    exact absurd ht (f.status_ne_faulted hr c fpc)

/-! ### Faults -/

/-- Settles O25: the only step that ends in a fault is the fault's entry. -/
theorem faultsArePrecise : Obligations.FaultsArePrecise := by
  intro s t c fpc hr h ht
  rw [← machineIsVariantAtHardware s] at h
  exact (stepIn_faulted hr h ht).2

/-- Settles O50: the code of a fault entered is one the configuration leaves possible. -/
theorem faultCodesByConfiguration : Obligations.FaultCodesByConfiguration := by
  intro s t c fpc hr ht
  have hallowed (cfg : Config) (h : stepIn cfg s = .next t) : CodeAllowed cfg c :=
    stepEffect_error (stepIn_faulted hr h ht).1
  refine ⟨fun h => ?_, hallowed⟩
  rw [← machineIsVariantAtHardware s] at h
  exact (hallowed Config.hw h).1 rfl

/-! ### Memory and the relative base -/

/-- Settles O11, by the cases of a step. -/
theorem memoryNeverShrinks : Obligations.MemoryNeverShrinks := by
  intro s t h
  rcases step_cases h with ⟨-, c, -, rfl⟩ | rfl | ⟨-, he⟩
  · exact le_refl _
  · exact le_refl _
  · obtain ⟨i, -, f⟩ := stepEffect_frame he
    exact f.memLen

/-- Settles O27: of the effects only AdjustRelativeBase's changes `rb`. -/
theorem relativeBaseOnlyByArb : Obligations.RelativeBaseOnlyByArb := by
  intro s t h hne
  rcases step_cases h with ⟨-, c, -, rfl⟩ | rfl | ⟨-, he⟩
  · exact absurd rfl hne
  · exact absurd rfl hne
  · obtain ⟨i, hi, f⟩ := stepEffect_frame he
    rcases f.rb with hrb | ⟨m0, d1, d2, rfl⟩
    · exact absurd hrb hne
    · exact ⟨m0, d1, d2, hi⟩

/-! ### The invariant -/

/-- A running instance with the invariant has sent no sentinel (R290). -/
theorem State.Inv.no_sentinel {s : State} (hs : s.Inv) (hr : s.status = .running) : OutItem.haltSentinel ∉ s.outQ := by
  intro hmem
  have := hs.sentinelHalted hmem
  rw [hr] at this
  cases this

/-- Entering a fault that this hardware can raise keeps the invariant of a running instance. -/
theorem State.Inv.enterFault {s : State} {c : FaultCode} (hs : s.Inv) (hr : s.status = .running)
    (hc : c ≠ .capacityExceeded) : (enterFault c s).Inv where
  memWf := hs.memWf
  memBelow := hs.memBelow
  lenBound := hs.lenBound
  pcNonneg := hs.pcNonneg
  goneEmpty := hs.goneEmpty
  sentinelLast := hs.sentinelLast
  sentinelHalted hmem := absurd hmem (hs.no_sentinel hr)
  faultRecord d fpc h := by
    cases h
    exact ⟨rfl, hc⟩

/-- What an effect sends leaves the sentinel at most at the end, and only in a halted instance. -/
theorem EffectFrame.sentinel {cfg : Config} {i : Instr} {s t : State} (f : EffectFrame cfg i s t)
    (hno : OutItem.haltSentinel ∉ s.outQ) :
    OutItem.haltSentinel ∉ t.outQ.dropLast ∧ (OutItem.haltSentinel ∈ t.outQ → t.status = .halted) := by
  rcases f.outQ with hq | ⟨v, -, hq⟩ | ⟨-, hhalt, hq⟩
  · rw [hq]
    exact ⟨fun h => hno (List.mem_of_mem_dropLast h), fun h => absurd h hno⟩
  · simp [hq, hno]
  · simp [hq, hno, hhalt]

/-- An effect keeps the invariant of a running instance. -/
theorem State.Inv.effect {cfg : Config} {i : Instr} {s t : State} (hs : s.Inv) (hr : s.status = .running)
    (f : EffectFrame cfg i s t) : t.Inv where
  memWf := by
    rcases f.mem with hm | ⟨a, v, -, -, hm⟩ <;> rw [hm]
    · exact hs.memWf
    · exact Memory.write_wf hs.memWf _ _
  memBelow c hc := by
    rcases f.mem with hm | ⟨a, v, -, ha, hm⟩ <;> rw [hm] at hc
    · exact (hs.memBelow c hc).trans_le f.memLen
    · rcases Memory.mem_write hc with h | h
      · rw [h]
        exact ha
      · exact (hs.memBelow c h).trans_le f.memLen
  lenBound := f.memLenBound hs.lenBound
  pcNonneg := f.pc
  goneEmpty hg := by
    rw [f.outGone] at hg
    rcases f.outQ with hq | ⟨v, hopen, -⟩ | ⟨hopen, -⟩
    · rw [hq, hs.goneEmpty hg]
    · rw [hg] at hopen
      cases hopen
    · rw [hg] at hopen
      cases hopen
  sentinelLast := (f.sentinel (hs.no_sentinel hr)).1
  sentinelHalted := (f.sentinel (hs.no_sentinel hr)).2
  faultRecord c fpc h := absurd h (f.status_ne_faulted hr c fpc)

/-- Settles O24, by the cases of a step: a fault of this hardware, no change, or an effect. -/
theorem stepKeepsInvariant : Obligations.StepKeepsInvariant := by
  intro s t hs h
  rcases step_cases h with ⟨hr, c, he, rfl⟩ | rfl | ⟨hr, he⟩
  · exact hs.enterFault hr ((stepEffect_error he).1 rfl)
  · exact hs
  · obtain ⟨i, -, f⟩ := stepEffect_frame he
    exact hs.effect hr f

end Sys2Proof.Machine
end

section
/-! O3 to O6: which words are legal on this hardware, and which fault every other word raises (R106, R111 to R115, D4 to D7).
A word is legal exactly if it is the word of a legal instruction, so the table is read off the opcode and the digits of the
legal instructions. -/

namespace Sys2Proof.Machine

/-! ### The table of legal words -/

/-- A row of the table of R106: an opcode and three digits that make a legal word of this hardware. -/
abbrev LegalFields (op m0 m1 m2 : Nat) : Prop :=
  ((op = 1 ∨ op = 2 ∨ op = 7 ∨ op = 8) ∧ m0 ≤ 2 ∧ m1 ≤ 2 ∧ (m2 = 0 ∨ m2 = 2)) ∨
    (op = 3 ∧ (m0 = 0 ∨ m0 = 2) ∧ m1 ≤ 2 ∧ m2 ≤ 2) ∨
    ((op = 4 ∨ op = 9 ∨ op = 5 ∨ op = 6 ∨ op = 99) ∧ m0 ≤ 2 ∧ m1 ≤ 2 ∧ m2 ≤ 2)

theorem decode_eq_ok_iff {w : Word} {i : Instr} : decode w = .ok i ↔ i.wf = true ∧ encode i = w :=
  decodeIn_eq_ok_iff

theorem digitOfMode_le (m : Mode) : (digitOfMode m).val ≤ 2 := by cases m <;> decide

theorem writable_iff {m : Mode} : m.writable = true ↔ (digitOfMode m).val = 0 ∨ (digitOfMode m).val = 2 := by
  cases m <;> decide

theorem unusedOk_hw {d : Digit} : Config.hw.unusedOk d = true ↔ d.val ≤ 2 := by
  simp [Config.unusedOk, Config.hw]

/-- A legal instruction's opcode and digits are a row of the table. -/
theorem legalFields_of_wf {i : Instr} (h : i.wf = true) :
    LegalFields i.opcode i.digits.1.val i.digits.2.1.val i.digits.2.2.val := by
  cases i <;>
    simpa [Instr.wf, Instr.wfIn, LegalFields, Instr.opcode, Instr.digits, writable_iff, unusedOk_hw, digitOfMode_le,
      and_assoc] using h

theorem exists_mode_of_le {n : Nat} (h : n ≤ 2) : ∃ m, (digitOfMode m).val = n := by
  interval_cases n
  · exact ⟨.position, rfl⟩
  · exact ⟨.immediate, rfl⟩
  · exact ⟨.relative, rfl⟩

/-- Every row of the table is the opcode and the digits of a legal instruction. -/
theorem exists_instr_of_legalFields {op n0 n1 n2 : Nat} (h : LegalFields op n0 n1 n2) :
    ∃ i : Instr, i.wf = true ∧ i.opcode = op ∧ i.digits.1.val = n0 ∧ i.digits.2.1.val = n1 ∧ i.digits.2.2.val = n2 := by
  have hle : n0 ≤ 2 ∧ n1 ≤ 2 ∧ n2 ≤ 2 := by unfold LegalFields at h; omega
  obtain ⟨hn0, hn1, hn2⟩ := hle
  obtain ⟨m0, rfl⟩ := exists_mode_of_le hn0
  obtain ⟨m1, rfl⟩ := exists_mode_of_le hn1
  obtain ⟨m2, rfl⟩ := exists_mode_of_le hn2
  have hu0 := unusedOk_hw.mpr hn0
  have hu1 := unusedOk_hw.mpr hn1
  have hu2 := unusedOk_hw.mpr hn2
  have hunused : (Config.hw.unusedOk (digitOfMode m1) && Config.hw.unusedOk (digitOfMode m2)) = true := by rw [hu1, hu2]; rfl
  rcases h with ⟨rfl | rfl | rfl | rfl, -, -, hw⟩ | ⟨rfl, hw, -, -⟩ | ⟨rfl | rfl | rfl | rfl | rfl, -, -, -⟩
  · exact ⟨.add m0 m1 m2, writable_iff.mpr hw, rfl, rfl, rfl, rfl⟩
  · exact ⟨.mul m0 m1 m2, writable_iff.mpr hw, rfl, rfl, rfl, rfl⟩
  · exact ⟨.lt m0 m1 m2, writable_iff.mpr hw, rfl, rfl, rfl, rfl⟩
  · exact ⟨.eq m0 m1 m2, writable_iff.mpr hw, rfl, rfl, rfl, rfl⟩
  · exact ⟨.inp m0 (digitOfMode m1) (digitOfMode m2), by simp [Instr.wf, Instr.wfIn, writable_iff.mpr hw, hu1, hu2], rfl, rfl,
      rfl, rfl⟩
  · exact ⟨.out m0 (digitOfMode m1) (digitOfMode m2), hunused, rfl, rfl, rfl, rfl⟩
  · exact ⟨.arb m0 (digitOfMode m1) (digitOfMode m2), hunused, rfl, rfl, rfl, rfl⟩
  · exact ⟨.jt m0 m1 (digitOfMode m2), hu2, rfl, rfl, rfl, rfl⟩
  · exact ⟨.jf m0 m1 (digitOfMode m2), hu2, rfl, rfl, rfl, rfl⟩
  · exact ⟨.hlt (digitOfMode m0) (digitOfMode m1) (digitOfMode m2), by simp [Instr.wf, Instr.wfIn, hu0, hu1, hu2], rfl, rfl,
      rfl, rfl⟩

/-- R101: the integer value of an instruction's word. -/
theorem encode_toInt_fields (i : Instr) : (encode i).toInt =
    (i.opcode + 100 * i.digits.1.val + 1000 * i.digits.2.1.val + 10000 * i.digits.2.2.val : Nat) := by
  obtain ⟨hlt, hlow, h2, h3, h4⟩ := encodedWord i
  rw [encode_toInt, ← hlow, ← h2, ← h3, ← h4]
  simp only [low2, digit]
  omega

/-- Settles O3: a word that decodes is the word of a legal instruction, whose fields are a row of the table. -/
theorem legalWordsAreTheTable : Obligations.LegalWordsAreTheTable := by
  intro w
  constructor
  · rintro ⟨i, hi⟩
    obtain ⟨hwf, rfl⟩ := decode_eq_ok_iff.mp hi
    exact ⟨_, _, _, _, legalFields_of_wf hwf, encode_toInt_fields i⟩
  · rintro ⟨op, n0, n1, n2, hrow, hw⟩
    obtain ⟨i, hwf, rfl, rfl, rfl, rfl⟩ := exists_instr_of_legalFields hrow
    refine ⟨i, decode_eq_ok_iff.mpr ⟨hwf, BitVec.eq_of_toInt_eq ?_⟩⟩
    rw [encode_toInt_fields, hw]

/-! ### How many there are -/

/-- The word with an opcode and three digits (R101). -/
def wordOfFields (f : Nat × Nat × Nat × Nat) : Word :=
  BitVec.ofNat 64 (f.1 + 100 * f.2.1 + 1000 * f.2.2.1 + 10000 * f.2.2.2)

/-- The rows of the table of R106, family by family. -/
def legalRows : List (Nat × Nat × Nat × Nat) :=
  [1, 2, 7, 8] ×ˢ [0, 1, 2] ×ˢ [0, 1, 2] ×ˢ [0, 2] ++
    ([3] ×ˢ [0, 2] ×ˢ [0, 1, 2] ×ˢ [0, 1, 2] ++ [4, 9, 5, 6, 99] ×ˢ [0, 1, 2] ×ˢ [0, 1, 2] ×ˢ [0, 1, 2])

theorem legalRows_length : legalRows.length = 225 := by
  simp only [legalRows, List.length_append, List.length_product, List.length_cons, List.length_nil, Nat.reduceAdd,
    Nat.reduceMul]

theorem mem_zero_one_two {n : Nat} : n ∈ [0, 1, 2] ↔ n ≤ 2 := by
  simp only [List.mem_cons, List.not_mem_nil, or_false]
  omega

theorem mem_legalRows {op n0 n1 n2 : Nat} : (op, n0, n1, n2) ∈ legalRows ↔ LegalFields op n0 n1 n2 := by
  simp only [legalRows, List.mem_append, List.mem_product, mem_zero_one_two]
  simp only [List.mem_cons, List.not_mem_nil, or_false]

/-- Rows with different opcodes are different. -/
theorem disjoint_rows {l k : List Nat} (h : l.Disjoint k) (r q : List (Nat × Nat × Nat)) :
    (l ×ˢ r).Disjoint (k ×ˢ q) := by
  rintro ⟨op, f⟩ hl hk
  exact h (List.mem_product.mp hl).1 (List.mem_product.mp hk).1

theorem legalRows_nodup : legalRows.Nodup := by
  have hmodes : [0, 1, 2].Nodup := by decide
  have hwritable : [0, 2].Nodup := by decide
  have hstoring : ([1, 2, 7, 8] ×ˢ [0, 1, 2] ×ˢ [0, 1, 2] ×ˢ [0, 2]).Nodup :=
    .product (by decide) (hmodes.product (hmodes.product hwritable))
  have hinput : ([3] ×ˢ [0, 2] ×ˢ [0, 1, 2] ×ˢ [0, 1, 2]).Nodup :=
    .product (by decide) (hwritable.product (hmodes.product hmodes))
  have hother : ([4, 9, 5, 6, 99] ×ˢ [0, 1, 2] ×ˢ [0, 1, 2] ×ˢ [0, 1, 2]).Nodup :=
    .product (by decide) (hmodes.product (hmodes.product hmodes))
  refine hstoring.append (hinput.append hother (disjoint_rows (by simp) _ _)) (List.disjoint_append_right.mpr ⟨?_, ?_⟩)
  · exact disjoint_rows (by simp) _ _
  · exact disjoint_rows (by simp) _ _

/-- The decimal fields of a row's value are the row (R101). -/
theorem LegalFields.value_fields {x : Int} {op m0 m1 m2 : Nat} (h : LegalFields op m0 m1 m2)
    (hx : x = (op + 100 * m0 + 1000 * m1 + 10000 * m2 : Nat)) :
    x < 100000 ∧ x % 100 = op ∧ x / 100 % 10 = m0 ∧ x / 1000 % 10 = m1 ∧ x / 10000 % 10 = m2 := by
  unfold LegalFields at h
  have hthousands : x / 1000 = m1 + 10 * m2 := by omega
  have htenThousands : x / 10000 = m2 := by omega
  omega

theorem wordOfFields_toInt {op n0 n1 n2 : Nat} (h : LegalFields op n0 n1 n2) :
    (wordOfFields (op, n0, n1, n2)).toInt = (op + 100 * n0 + 1000 * n1 + 10000 * n2 : Nat) := by
  have hlt : op + 100 * n0 + 1000 * n1 + 10000 * n2 < 100000 := by unfold LegalFields at h; omega
  rw [wordOfFields, BitVec.toInt_eq_toNat_of_lt] <;> simp only [BitVec.toNat_ofNat] <;> omega

/-- Two rows with one word are the same row. -/
theorem wordOfFields_injOn {f g : Nat × Nat × Nat × Nat} (hf : f ∈ legalRows) (hg : g ∈ legalRows)
    (h : wordOfFields f = wordOfFields g) : f = g := by
  obtain ⟨op, n0, n1, n2⟩ := f
  obtain ⟨op', k0, k1, k2⟩ := g
  rw [mem_legalRows] at hf hg
  obtain ⟨-, eop, e0, e1, e2⟩ := hf.value_fields (wordOfFields_toInt hf)
  obtain ⟨-, eop', e0', e1', e2'⟩ := hg.value_fields ((congrArg BitVec.toInt h).trans (wordOfFields_toInt hg))
  rw [Int.ofNat_inj.mp (eop.symm.trans eop'), Int.ofNat_inj.mp (e0.symm.trans e0'), Int.ofNat_inj.mp (e1.symm.trans e1'),
    Int.ofNat_inj.mp (e2.symm.trans e2')]

/-- Settles O4: the table has 225 rows, and each has a word of its own. -/
theorem legalWordsNumber225 : Obligations.LegalWordsNumber225 := by
  refine ⟨legalRows.map wordOfFields, ?_, ?_, fun w => ?_⟩
  · exact legalRows_nodup.map_on fun f hf g hg h => wordOfFields_injOn hf hg h
  · rw [List.length_map, legalRows_length]
  · rw [legalWordsAreTheTable w, List.mem_map]
    constructor
    · rintro ⟨⟨op, n0, n1, n2⟩, hmem, rfl⟩
      have hrow := mem_legalRows.mp hmem
      exact ⟨op, n0, n1, n2, hrow, wordOfFields_toInt hrow⟩
    · rintro ⟨op, n0, n1, n2, hrow, hw⟩
      exact ⟨(op, n0, n1, n2), mem_legalRows.mpr hrow, BitVec.eq_of_toInt_eq (by rw [wordOfFields_toInt hrow, hw])⟩

/-! ### The words that do not decode -/

theorem decode_negative {w : Word} (h : w.toInt < 0) : decode w = .error .invalidOpcode := by
  simp [decode, decodeIn, h]

/-- R112: the low-two-digit values that are no opcode. -/
theorem decodeOpcode_eq_none {cfg : Config} {op : Nat} (h : op ∉ [1, 2, 3, 4, 5, 6, 7, 8, 9, 99]) :
    decodeOpcode cfg op = none := by
  unfold decodeOpcode
  split <;> simp_all

theorem low2_toInt {w : Word} (h0 : 0 ≤ w.toInt) : (low2 w.toNat : Int) = w.toInt % 100 := by
  have := word_toNat_eq h0
  unfold low2
  omega

theorem decode_unknown {w : Word} (h0 : 0 ≤ w.toInt) (h : w.toInt % 100 ∉ [1, 2, 3, 4, 5, 6, 7, 8, 9, 99]) :
    decode w = .error .invalidOpcode := by
  have hop : low2 w.toNat ∉ [1, 2, 3, 4, 5, 6, 7, 8, 9, 99] := by
    rw [← low2_toInt h0] at h
    simp only [List.mem_cons, List.not_mem_nil, or_false] at h ⊢
    omega
  simp [decode, decodeIn, not_lt.mpr h0, decodeOpcode_eq_none hop]

/-! R113 to R115: no format raises another fault than InvalidAddressingMode. -/

theorem decodeRRW_error {mk : Mode → Mode → Mode → Instr} {d0 d1 d2 : Digit} {c : FaultCode}
    (h : decodeRRW mk d0 d1 d2 = .error c) : c = .invalidAddressingMode := by
  unfold decodeRRW at h
  split at h
  · split at h <;> cases h
    rfl
  · cases h
    rfl

theorem decodeRR_error {cfg : Config} {mk : Mode → Mode → Digit → Instr} {d0 d1 d2 : Digit} {c : FaultCode}
    (h : decodeRR cfg mk d0 d1 d2 = .error c) : c = .invalidAddressingMode := by
  unfold decodeRR at h
  split at h
  · split at h <;> cases h
    rfl
  · cases h
    rfl

theorem decodeR_error {cfg : Config} {mk : Mode → Digit → Digit → Instr} {d0 d1 d2 : Digit} {c : FaultCode}
    (h : decodeR cfg mk d0 d1 d2 = .error c) : c = .invalidAddressingMode := by
  unfold decodeR at h
  split at h
  · split at h <;> cases h
    rfl
  · cases h
    rfl

theorem decodeW_error {cfg : Config} {mk : Mode → Digit → Digit → Instr} {d0 d1 d2 : Digit} {c : FaultCode}
    (h : decodeW cfg mk d0 d1 d2 = .error c) : c = .invalidAddressingMode := by
  unfold decodeW at h
  split at h
  · split at h <;> cases h
    rfl
  · cases h
    rfl

theorem decodeNone_error {cfg : Config} {mk : Digit → Digit → Digit → Instr} {d0 d1 d2 : Digit} {c : FaultCode}
    (h : decodeNone cfg mk d0 d1 d2 = .error c) : c = .invalidAddressingMode := by
  unfold decodeNone at h
  split at h <;> cases h
  rfl

theorem decodeOpcode_error {cfg : Config} {op : Nat} {build : Digit → Digit → Digit → Except FaultCode Instr}
    {d0 d1 d2 : Digit} {c : FaultCode} (hop : decodeOpcode cfg op = some build) (h : build d0 d1 d2 = .error c) :
    c = .invalidAddressingMode := by
  unfold decodeOpcode at hop
  split at hop <;> cases hop
  case h_1 | h_2 | h_7 | h_8 => exact decodeRRW_error h
  case h_3 => exact decodeW_error h
  case h_4 | h_9 => exact decodeR_error h
  case h_5 | h_6 => exact decodeRR_error h
  case h_10 => exact decodeNone_error h

theorem decodeOpcode_eq_some (cfg : Config) {op : Nat} (h : op ∈ [1, 2, 3, 4, 5, 6, 7, 8, 9, 99]) :
    ∃ build, decodeOpcode cfg op = some build := by
  simp only [List.mem_cons, List.not_mem_nil, or_false] at h
  rcases h with rfl | rfl | rfl | rfl | rfl | rfl | rfl | rfl | rfl | rfl <;> exact ⟨_, rfl⟩

/-- A word with an opcode that is not in the table raises InvalidAddressingMode (R113 to R115). -/
theorem decode_illegal {w : Word} (h0 : 0 ≤ w.toInt) (hop : w.toInt % 100 ∈ [1, 2, 3, 4, 5, 6, 7, 8, 9, 99])
    (hno : ∀ op m0 m1 m2 : Nat, LegalFields op m0 m1 m2 →
      w.toInt ≠ (op + 100 * m0 + 1000 * m1 + 10000 * m2 : Nat)) : decode w = .error .invalidAddressingMode := by
  have hlow : low2 w.toNat ∈ [1, 2, 3, 4, 5, 6, 7, 8, 9, 99] := by
    rw [← low2_toInt h0] at hop
    simp only [List.mem_cons, List.not_mem_nil, or_false] at hop ⊢
    omega
  obtain ⟨build, hbuild⟩ := decodeOpcode_eq_some Config.hw hlow
  by_cases hlt : w.toNat < 100000
  · have hw : decode w = _ := decodeIn_eq_build h0 hlt hbuild
    cases hb : build (digit w.toNat 2) (digit w.toNat 3) (digit w.toNat 4) with
    | error c => rw [hw, hb, decodeOpcode_error hbuild hb]
    | ok i =>
      obtain ⟨op, m0, m1, m2, hrow, hval⟩ := (legalWordsAreTheTable w).mp ⟨i, hw.trans hb⟩
      exact absurd hval (hno op m0 m1 m2 hrow)
  · simp only [decode, decodeIn, if_neg (not_lt.mpr h0), hbuild, if_pos (not_lt.mp hlt)]

/-- A number of at most five digits is the sum of its decimal fields (R101). -/
theorem eq_sum_of_fields {x : Int} (h0 : 0 ≤ x) (hlt : x < 100000) :
    x = x % 100 + 100 * (x / 100 % 10) + 1000 * (x / 1000 % 10) + 10000 * (x / 10000 % 10) := by
  have hthousands : x / 1000 = x / 100 / 10 := by omega
  have htenThousands : x / 10000 = x / 1000 / 10 := by omega
  have hlast : x / 10000 % 10 = x / 10000 := Int.emod_eq_of_lt (by omega) (by omega)
  omega

/-- Digits that pass the checks of R112 to R115 are a row of the table. -/
theorem legalFields_of_checks {op m0 m1 m2 : Nat} (hop : (op : Int) ∈ [1, 2, 3, 4, 5, 6, 7, 8, 9, 99])
    (hdigit : ¬ (2 < (m0 : Int) ∨ 2 < (m1 : Int) ∨ 2 < (m2 : Int)))
    (hwrite : ¬ (((op : Int) ∈ [1, 2, 7, 8] ∧ (m2 : Int) = 1) ∨ ((op : Int) = 3 ∧ (m0 : Int) = 1))) :
    LegalFields op m0 m1 m2 := by
  simp only [List.mem_cons, List.not_mem_nil, or_false] at hop hwrite
  rcases hop with h | h | h | h | h | h | h | h | h | h <;>
    simp [h] at hwrite <;> unfold LegalFields <;> omega

/-- Settles O5: the two checks on the opcode by themselves, then the words that are no row of the table, then the rows. -/
theorem decodeFaultsInOrder : Obligations.DecodeFaultsInOrder := by
  intro w
  by_cases hneg : w.toInt < 0
  · rw [if_pos hneg]
    exact decode_negative hneg
  have h0 : 0 ≤ w.toInt := not_lt.mp hneg
  rw [if_neg hneg]
  by_cases hop : w.toInt % 100 ∉ [1, 2, 3, 4, 5, 6, 7, 8, 9, 99]
  · rw [if_pos hop]
    exact decode_unknown h0 hop
  rw [if_neg hop]
  rw [not_not] at hop
  split_ifs with hbig hdigit hwrite
  · refine decode_illegal h0 hop fun op m0 m1 m2 hrow hval => ?_
    obtain ⟨hlt, -⟩ := hrow.value_fields hval
    omega
  · refine decode_illegal h0 hop fun op m0 m1 m2 hrow hval => ?_
    obtain ⟨-, -, e0, e1, e2⟩ := hrow.value_fields hval
    unfold LegalFields at hrow
    omega
  · refine decode_illegal h0 hop fun op m0 m1 m2 hrow hval => ?_
    obtain ⟨-, eop, e0, -, e2⟩ := hrow.value_fields hval
    rw [eop, e0, e2] at hwrite
    simp only [List.mem_cons, List.not_mem_nil, or_false] at hwrite
    unfold LegalFields at hrow
    omega
  · have hsum := eq_sum_of_fields h0 (not_le.mp hbig)
    obtain ⟨op, eop⟩ := Int.eq_ofNat_of_zero_le (Int.emod_nonneg w.toInt (show (100 : Int) ≠ 0 by decide))
    obtain ⟨m0, e0⟩ := Int.eq_ofNat_of_zero_le (Int.emod_nonneg (w.toInt / 100) (show (10 : Int) ≠ 0 by decide))
    obtain ⟨m1, e1⟩ := Int.eq_ofNat_of_zero_le (Int.emod_nonneg (w.toInt / 1000) (show (10 : Int) ≠ 0 by decide))
    obtain ⟨m2, e2⟩ := Int.eq_ofNat_of_zero_le (Int.emod_nonneg (w.toInt / 10000) (show (10 : Int) ≠ 0 by decide))
    rw [eop, e0, e1, e2] at hsum
    rw [e0, e1, e2] at hdigit
    rw [eop, e0, e2] at hwrite
    rw [eop] at hop ⊢
    have hrow := legalFields_of_checks hop hdigit hwrite
    obtain ⟨i, hwf, hi, hd0, hd1, hd2⟩ := exists_instr_of_legalFields hrow
    have hw : encode i = w := by
      apply BitVec.eq_of_toInt_eq
      rw [encode_toInt_fields, hi, hd0, hd1, hd2, hsum]
      push_cast
      rfl
    exact ⟨i, decode_eq_ok_iff.mpr ⟨hwf, hw⟩, by rw [hi]⟩

/-- Settles O6: each word is the word of its instruction. -/
theorem specWordsDecode : Obligations.SpecWordsDecode := by
  unfold Obligations.SpecWordsDecode
  simp only [decode_eq_ok_iff]
  decide

end Sys2Proof.Machine
end

section
/-! O9, O12 to O16: memory as its reads (R39, R67), and the state that construction gives (R49, R402 to R404). -/

namespace Sys2Proof.Machine

/-! ### Reads and writes -/

/-- An access to memory that an earlier access already grew grows it no more (R66). -/
theorem State.touch_eq_self {s : State} {a : Nat} (h : a < s.memLen) : s.touch a = s := by
  rw [State.touch, if_neg (not_le.mpr h)]

/-- Settles O9, by the laws of a read after a write. -/
theorem readReturnsLastWrite : Obligations.ReadReturnsLastWrite := by
  intro s a v hwf ha
  refine ⟨_, memWrite_hw ha v s, ?_, fun b hb hne => ?_⟩
  · have hgrown : a.toNat < ((s.touch a.toNat).setMem (s.mem.write a.toNat v)).memLen := lt_touch_memLen s a.toNat
    rw [memRead_hw ha, State.setMem_mem, Memory.read_write_same hwf, State.touch_eq_self hgrown]
  · have hnat : b.toNat ≠ a.toNat := fun h => hne (BitVec.eq_of_toNat_eq h)
    exact ⟨_, by rw [memRead_hw hb, State.setMem_mem, Memory.read_write_other _ _ hnat]⟩

/-- The lowest listed cell of a canonical memory is the first: every address below it reads 0. -/
theorem Memory.read_below {a b : Nat} {v : Word} {m : Memory} (h : Memory.wf ((b, v) :: m) = true) (hab : a < b) :
    Memory.read ((b, v) :: m) a = 0#64 := by
  obtain ⟨-, habove, -⟩ := Memory.wf_cons.mp h
  refine Memory.read_unlisted fun c hc => ?_
  rcases List.mem_cons.mp hc with rfl | hc
  · exact hab.ne'
  · exact (hab.trans (habove c hc)).ne'

theorem Memory.read_head (b : Nat) (v : Word) (m : Memory) : Memory.read ((b, v) :: m) b = v := if_pos rfl

/-- The memory without its first cell reads 0 there, and as before elsewhere. -/
theorem Memory.read_tail {b : Nat} {v : Word} {m : Memory} (h : Memory.wf ((b, v) :: m) = true) (a : Nat) :
    Memory.read m a = if a = b then 0#64 else Memory.read ((b, v) :: m) a := by
  split
  next hab =>
    subst hab
    obtain ⟨-, habove, -⟩ := Memory.wf_cons.mp h
    exact Memory.read_unlisted fun c hc => (habove c hc).ne'
  next hab => rw [Memory.read_cons, if_neg hab]

/-- Settles O12, by induction on both memories: the lowest address that does not read 0 is the first cell of each. -/
theorem canonicalMemoryIsItsReads : Obligations.CanonicalMemoryIsItsReads := by
  intro m
  induction m with
  | nil =>
    rintro (_ | ⟨⟨b, w⟩, n⟩) - hn hread
    · rfl
    · have := hread b
      rw [Memory.read_nil, Memory.read_head] at this
      exact absurd this.symm (Memory.wf_cons.mp hn).1
  | cons c m ih =>
    obtain ⟨a, v⟩ := c
    rintro (_ | ⟨⟨b, w⟩, n⟩) hm hn hread
    · have := hread a
      rw [Memory.read_nil, Memory.read_head] at this
      exact absurd this (Memory.wf_cons.mp hm).1
    obtain ⟨hv, -, hm'⟩ := Memory.wf_cons.mp hm
    obtain ⟨hw, -, hn'⟩ := Memory.wf_cons.mp hn
    obtain rfl : a = b := by
      rcases lt_trichotomy a b with hlt | heq | hgt
      · have := hread a
        rw [Memory.read_head, Memory.read_below hn hlt] at this
        exact absurd this hv
      · exact heq
      · have := hread b
        rw [Memory.read_head, Memory.read_below hm hgt] at this
        exact absurd this.symm hw
    have hvw := hread a
    rw [Memory.read_head, Memory.read_head] at hvw
    rw [hvw, ih n hm' hn' fun x => by rw [Memory.read_tail hm, Memory.read_tail hn, hread x]]

/-! ### Construction -/

/-- Settles O13: the reset values are those the state is written with. -/
theorem resetValues : Obligations.ResetValues :=
  ⟨rfl, rfl, rfl, rfl, fun _ => rfl, rfl, rfl, rfl, rfl⟩

/-- Below the place of a program its memory reads 0. -/
theorem Memory.read_ofWords_below {ws : List Word} {a b : Nat} (h : b < a) : (Memory.ofWords a ws).read b = 0#64 :=
  Memory.read_unlisted fun _ hc => (h.trans_le (Memory.mem_ofWords hc).1).ne'

/-- R402: word `k` of a program placed from `a` on is at `a + k`. -/
theorem Memory.read_ofWords {ws : List Word} {k : Nat} {v : Word} (h : ws[k]? = some v) (a : Nat) :
    (Memory.ofWords a ws).read (a + k) = v := by
  induction ws generalizing a k with
  | nil => cases h
  | cons w ws ih =>
    cases k with
    | zero =>
      obtain rfl : w = v := Option.some.inj h
      by_cases hw : w = 0#64
      · rw [Memory.ofWords, if_pos hw, Memory.read_ofWords_below (by omega), hw]
      · rw [Memory.ofWords, if_neg hw]
        exact Memory.read_head a w _
    | succ k =>
      have hrest : (Memory.ofWords (a + 1) ws).read (a + (k + 1)) = v := by
        rw [show a + (k + 1) = a + 1 + k by omega]
        exact ih h (a + 1)
      by_cases hw : w = 0#64
      · rw [Memory.ofWords, if_pos hw, hrest]
      · rw [Memory.ofWords, if_neg hw, Memory.read_cons, if_neg (by omega), hrest]

/-- Settles O14: the cells of the program and those past it; the other fields are the definition's. -/
theorem constructionPlacesProgram : Obligations.ConstructionPlacesProgram := by
  refine fun program inputs => ⟨fun a v h => ?_, fun a h => ?_, rfl, rfl⟩
  · have := Memory.read_ofWords h 0
    rwa [Nat.zero_add] at this
  · exact Memory.read_past_end (fun c hc => by have := Memory.mem_ofWords hc; omega) h

/-- A constructed instance has the invariant, whatever is queued for it and whether its input is closed. -/
theorem construct_inv {program : List Word} (h : program.length ≤ 9223372036854775808) (inputs : List Word)
    (closed : Bool) : State.Inv { construct program with inQ := inputs, inClosed := closed } where
  memWf := Memory.ofWords_wf 0 program
  memBelow c hc := by
    obtain ⟨-, hlt⟩ := Memory.mem_ofWords hc
    rwa [Nat.zero_add] at hlt
  lenBound := h
  pcNonneg := show 0 ≤ (0 : Word).toInt by decide
  goneEmpty _ := rfl
  sentinelLast := List.not_mem_nil
  sentinelHalted h := absurd h List.not_mem_nil
  faultRecord _ _ h := by cases h

/-- Settles O16, with the input empty and open or as `run_with` leaves it. -/
theorem constructionHasInvariant : Obligations.ConstructionHasInvariant :=
  fun _ inputs h => ⟨construct_inv h [] false, construct_inv h inputs true⟩

/-- Settles O15: the reset state is the construction from the empty program. -/
theorem resetHasInvariant : Obligations.ResetHasInvariant :=
  (constructionHasInvariant [] [] (Nat.zero_le _)).1

end Sys2Proof.Machine
end

section
/-! O7, O17 to O21, O23, O29 and O53: from a step to the instruction it runs (R110, R130), and runs of steps. -/

namespace Sys2Proof.Machine

/-! ### Fetch and decode -/

/-- Settles O7: no effect takes a digit of a parameter that its instruction does not have. -/
theorem unusedDigitsHaveNoEffect : Obligations.UnusedDigitsHaveNoEffect :=
  fun _ _ _ _ _ _ _ _ _ => ⟨rfl, rfl, rfl, rfl, rfl, rfl⟩

/-- Settles O17: the effect of the step is that of the decoded instruction. -/
theorem stepRunsDecodedInstruction : Obligations.StepRunsDecodedInstruction := by
  intro s i hr hpc hi
  rw [step_running hr, exec_eq, stepEffect, fetchDecode_hw hpc, hi]

/-- Settles O18: the effect of the step is decode's fault. -/
theorem stepTakesDecodeFault : Obligations.StepTakesDecodeFault := by
  intro s c hr hpc hc
  rw [step_running hr, stepEffect, fetchDecode_hw hpc, hc]
  rfl

/-- Settles O19: decode's fault on a negative word. -/
theorem negativeWordFaults : Obligations.NegativeWordFaults :=
  fun s hr hpc hneg => stepTakesDecodeFault s _ hr hpc (decode_negative hneg)

/-- Settles O20: decode's fault on a word without an opcode. -/
theorem unknownOpcodeFaults : Obligations.UnknownOpcodeFaults := by
  intro s hr hpc h0 hlow
  refine stepTakesDecodeFault s _ hr hpc (decode_unknown h0 ?_)
  simp only [List.mem_cons, List.not_mem_nil, or_false]
  omega

/-- Settles O53: a fetch past the end of memory is refused by the check of its address. -/
theorem fetchPastCapacityFaults : Obligations.FetchPastCapacityFaults := by
  intro n s hr _ hpast
  have hcheck : checkAddress { Config.hw with memCapacity := some n } s.pc = .error .capacityExceeded :=
    checkAddress_past_capacity rfl hpast
  rw [stepIn_running hr, stepEffect, fetchDecode, memRead_of_check_error hcheck]
  rfl

/-! ### A placed instruction -/

theorem placeWord_read_same {s : State} {a : Nat} (hwf : s.mem.wf = true) (ha : a < 2 ^ 63) (v : Word) :
    (placeWord a v s).mem.read a = v := by
  rw [placeWord, if_pos ha, State.setMem_mem, Memory.read_write_same hwf]

/-- The first word placed stays where it is put: the words after it go to higher addresses. -/
theorem storeWords_read_first {s : State} {a : Nat} (hwf : s.mem.wf = true) (ha : a < 2 ^ 63) (n w : Nat) :
    (storeWords (n + 1) a w s).mem.read a = BitVec.ofNat 64 w := by
  rw [storeWords, storeWords_read _ _ _ _ _ (Nat.lt_succ_self a), placeWord_read_same hwf ha]

/-- Settles O21: what is fetched is the instruction's word, which decodes to it. -/
theorem placedInstructionRuns : Obligations.PlacedInstructionRuns := by
  intro i hwf
  have hpc : (State.reset.withFetchWord 64 (encode i).toNat).pc = 0 := storeWords_pc _ _ _ _
  have hrun : (State.reset.withFetchWord 64 (encode i).toNat).status = .running := storeWords_status _ _ _ _
  have hword : (State.reset.withFetchWord 64 (encode i).toNat).mem.read 0 = encode i := by
    rw [State.withFetchWord]
    refine (storeWords_read_first rfl (by decide) 3 _).trans ?_
    rw [Nat.mod_eq_of_lt (encode i).isLt, BitVec.ofNat_toNat, BitVec.setWidth_eq]
  refine stepRunsDecodedInstruction _ i hrun (by rw [hpc]; decide) ?_
  rw [hpc, show (0 : Word).toNat = 0 from rfl, hword]
  exact decode_eq_ok_iff.mpr ⟨hwf, rfl⟩

/-! ### Runs -/

theorem exists_step (s : State) : ∃ t, step s = .next t := by
  rw [← machineIsVariantAtHardware s]
  by_cases hr : s.status = .running
  · rw [stepIn_running hr]
    exact settle_next s _
  · exact ⟨s, stepIn_ended hr⟩

/-- A run that answers has made its first step and then the rest of the run. -/
theorem core_run_succ_next {k : Nat} {s t : State} (h : core.run (k + 1) s = .next t) :
    ∃ u, step s = .next u ∧ core.run k u = .next t := by
  obtain ⟨u, hu⟩ := exists_step s
  rw [core_run_succ, hu] at h
  exact ⟨u, hu, h⟩

/-- Settles O23, by induction on the number of steps. -/
theorem everyRunAnswersState : Obligations.EveryRunAnswersState := by
  intro k
  induction k with
  | zero => exact fun s => ⟨s, rfl⟩
  | succ k ih =>
    intro s
    obtain ⟨u, hu⟩ := exists_step s
    rw [core_run_succ, hu]
    exact ih u

/-- From `s` to `t` values are taken from the head of the input and items appended at the tail of the output, and the
endpoint bits stay (R78, R79). -/
def QueuesMove (s t : State) : Prop :=
  (∃ taken, s.inQ = taken ++ t.inQ) ∧ (∃ sent, t.outQ = s.outQ ++ sent) ∧
    t.inClosed = s.inClosed ∧ t.outGone = s.outGone

theorem QueuesMove.refl (s : State) : QueuesMove s s := ⟨⟨[], rfl⟩, ⟨[], (List.append_nil _).symm⟩, rfl, rfl⟩

theorem QueuesMove.trans {s t u : State} (h : QueuesMove s t) (h' : QueuesMove t u) : QueuesMove s u := by
  obtain ⟨⟨taken, hin⟩, ⟨sent, hout⟩, hc, hg⟩ := h
  obtain ⟨⟨taken', hin'⟩, ⟨sent', hout'⟩, hc', hg'⟩ := h'
  exact ⟨⟨taken ++ taken', by rw [hin, hin', List.append_assoc]⟩, ⟨sent ++ sent', by rw [hout', hout, List.append_assoc]⟩,
    hc'.trans hc, hg'.trans hg⟩

theorem EffectFrame.queuesMove {cfg : Config} {i : Instr} {s t : State} (f : EffectFrame cfg i s t) : QueuesMove s t := by
  refine ⟨?_, ?_, f.inClosed, f.outGone⟩
  · rcases f.inQ with h | ⟨v, h⟩
    · exact ⟨[], h.symm⟩
    · exact ⟨[v], h⟩
  · rcases f.outQ with h | ⟨v, -, h⟩ | ⟨-, -, h⟩
    · exact ⟨[], by rw [h, List.append_nil]⟩
    · exact ⟨_, h⟩
    · exact ⟨_, h⟩

theorem step_queuesMove {s t : State} (h : step s = .next t) : QueuesMove s t := by
  rcases step_cases h with ⟨-, c, -, rfl⟩ | rfl | ⟨-, he⟩
  · exact QueuesMove.refl s
  · exact QueuesMove.refl t
  · obtain ⟨i, -, f⟩ := stepEffect_frame he
    exact f.queuesMove

/-- Settles O29, by induction on the number of steps. -/
theorem queuesAreFifo : Obligations.QueuesAreFifo := by
  intro k
  induction k with
  | zero =>
    rintro s t h
    cases h
    exact QueuesMove.refl s
  | succ k ih =>
    intro s t h
    obtain ⟨u, hu, hrest⟩ := core_run_succ_next h
    exact (step_queuesMove hu).trans (ih u t hrest)

end Sys2Proof.Machine
end

section
/-! O30 to O35, O37 to O40 and O43 to O45: what each instruction does on this hardware once its parameters resolve
(`Ready`). Each shape of an instruction is given once, in the closed form of Safety.lean; an instruction is then its shape
with the result, the condition or the queue filled in. -/

namespace Sys2Proof.Machine

/-! ### An instruction by its effect -/

theorem exec_of_error {i : Instr} {s : State} {c : FaultCode} (h : instrEffect Config.hw i s = .error c) :
    exec i s = .next { s with status := .faulted c s.pc } := by
  rw [exec_eq, h]
  rfl

theorem exec_of_hold {i : Instr} {s : State} (h : instrEffect Config.hw i s = .ok none) : exec i s = .next s := by
  rw [exec_eq, h]
  rfl

theorem exec_of_ok {i : Instr} {s t : State} (h : instrEffect Config.hw i s = .ok (some t)) : exec i s = .next t := by
  rw [exec_eq, h]
  rfl

/-! ### Three operands -/

/-- A three-operand instruction whose parameters resolve: the result decides, and is written to the target. -/
theorem threeOperand_of_ready {i : Instr} {m0 m1 m2 : Mode} {s : State}
    (hp : paramsOf i = [(.read, m0), (.read, m1), (.write, m2)]) (h : Ready i s)
    (result : Word → Word → Except FaultCode Word) :
    (∀ c, result (s.operand 0 m0) (s.operand 1 m1) = .error c → threeOperand Config.hw result m0 m1 m2 s = .error c) ∧
      ∀ a r, s.target 2 m2 = some a → result (s.operand 0 m0) (s.operand 1 m1) = .ok r →
        threeOperand Config.hw result m0 m1 m2 s = .ok (some { s with
          mem := s.mem.write a r
          memLen := grown s.memLen (s.reach i)
          pc := s.pc + 4#64 }) := by
  obtain ⟨-, hpc, hb, hres⟩ := h
  rw [hp] at hb hres
  rcases threeOperand_ready result hpc (hb (by simp)) with ⟨c, hc, -⟩ | ⟨a, -, ha, hr⟩
  · rw [hres] at hc
    cases hc
  · refine ⟨fun c hc => by rw [hr, hc], fun b r hb hok => ?_⟩
    obtain rfl : a = b := Option.some.inj (ha.symm.trans hb)
    rw [hr, hok, State.reach, hp]

/-- Settles O30: the sum passes the ALU. -/
theorem addWritesSum : Obligations.AddWritesSum := fun _ _ _ _ a h ha hin =>
  exec_of_ok ((threeOperand_of_ready rfl h (addResult Config.hw)).2 a _ ha (alu_in hin))

/-- Settles O31: the product passes the ALU. -/
theorem multiplyWritesProduct : Obligations.MultiplyWritesProduct := fun _ _ _ _ a h ha hin =>
  exec_of_ok ((threeOperand_of_ready rfl h (mulResult Config.hw)).2 a _ ha (alu_in hin))

theorem ltResult_eq (a b : Word) : ltResult a b = .ok (if a.toInt < b.toInt then 1#64 else 0#64) := by
  simp only [ltResult, truthWord, decide_eq_true_eq]

theorem eqResult_eq (a b : Word) : eqResult a b = .ok (if a.toInt = b.toInt then 1#64 else 0#64) := by
  simp only [eqResult, truthWord, decide_eq_true_eq, BitVec.toInt_inj]

/-- Settles O32: the signed comparison is a result that never faults. -/
theorem lessThanWritesComparison : Obligations.LessThanWritesComparison := fun _ _ _ _ a h ha =>
  exec_of_ok ((threeOperand_of_ready rfl h ltResult).2 a _ ha (ltResult_eq _ _))

/-- Settles O33: words are equal exactly if their integers are. -/
theorem equalsWritesComparison : Obligations.EqualsWritesComparison := fun _ _ _ _ a h ha =>
  exec_of_ok ((threeOperand_of_ready rfl h eqResult).2 a _ ha (eqResult_eq _ _))

/-- Settles O43: the ALU's fault is that of the instruction. -/
theorem overflowTraps : Obligations.OverflowTraps := by
  refine ⟨fun m0 m1 m2 s h hout => ?_, fun m0 m1 m2 s h hout => ?_, fun m0 d1 d2 s h hout => ?_⟩
  · exact exec_of_error ((threeOperand_of_ready rfl h (addResult Config.hw)).1 _ (alu_hw_out hout))
  · exact exec_of_error ((threeOperand_of_ready rfl h (mulResult Config.hw)).1 _ (alu_hw_out hout))
  · have heffect := arbEffect_ready h
    rw [alu_hw_out hout] at heffect
    exact exec_of_error heffect

/-! ### Conditional jumps -/

/-- A conditional jump whose parameters resolve: not taken, taken to a word address, or taken to a negative target. -/
theorem conditionalJump_of_ready {i : Instr} {m0 m1 : Mode} {s : State} (hp : paramsOf i = [(.read, m0), (.read, m1)])
    (h : Ready i s) (taken : Word → Bool) :
    (taken (s.operand 0 m0) = false → conditionalJump Config.hw taken m0 m1 s =
      .ok (some { s with memLen := grown s.memLen (s.reach i), pc := s.pc + 3#64 })) ∧
    (taken (s.operand 0 m0) = true → 0 ≤ (s.operand 1 m1).toInt → conditionalJump Config.hw taken m0 m1 s =
      .ok (some { s with memLen := grown s.memLen (s.reach i), pc := s.operand 1 m1 })) ∧
    (taken (s.operand 0 m0) = true → (s.operand 1 m1).toInt < 0 →
      conditionalJump Config.hw taken m0 m1 s = .error .invalidAddress) := by
  obtain ⟨-, hpc, hb, hres⟩ := h
  rw [hp] at hb hres
  rw [State.reach, hp]
  rcases conditionalJump_ready taken hpc (hb (by simp)) with ⟨c, hc, -⟩ | ⟨-, hj⟩
  · rw [hres] at hc
    cases hc
  · refine ⟨fun ht => ?_, fun ht hpos => ?_, fun ht hneg => ?_⟩
    · rw [hj, if_neg (by rw [ht]; exact Bool.false_ne_true)]
    · rw [hj, if_pos ht, if_neg (not_lt.mpr hpos)]
    · rw [hj, if_pos ht, if_pos hneg]

theorem jumpsIfTrue_eq_true {c : Word} : jumpsIfTrue c = true ↔ c ≠ 0#64 := decide_eq_true_iff
theorem jumpsIfTrue_eq_false {c : Word} : jumpsIfTrue c = false ↔ c = 0#64 := by simp [jumpsIfTrue]
theorem jumpsIfFalse_eq_true {c : Word} : jumpsIfFalse c = true ↔ c = 0#64 := decide_eq_true_iff
theorem jumpsIfFalse_eq_false {c : Word} : jumpsIfFalse c = false ↔ c ≠ 0#64 := decide_eq_false_iff_not

/-- Settles O37: the condition is any word but 0. -/
theorem jumpIfTrueTakesNonzero : Obligations.JumpIfTrueTakesNonzero := by
  intro m0 m1 d2 s h
  obtain ⟨hpass, htake, -⟩ := conditionalJump_of_ready rfl h jumpsIfTrue
  exact ⟨fun hc hpos => exec_of_ok (htake (jumpsIfTrue_eq_true.mpr hc) hpos),
    fun hc => exec_of_ok (hpass (jumpsIfTrue_eq_false.mpr hc))⟩

/-- Settles O38: the condition is the word 0. -/
theorem jumpIfFalseTakesZero : Obligations.JumpIfFalseTakesZero := by
  intro m0 m1 d2 s h
  obtain ⟨hpass, htake, -⟩ := conditionalJump_of_ready rfl h jumpsIfFalse
  exact ⟨fun hc hpos => exec_of_ok (htake (jumpsIfFalse_eq_true.mpr hc) hpos),
    fun hc => exec_of_ok (hpass (jumpsIfFalse_eq_false.mpr hc))⟩

/-- Settles O44: a jump that is taken looks at the sign of its target. -/
theorem negativeJumpTargetFaults : Obligations.NegativeJumpTargetFaults := by
  intro m0 m1 d2 s hneg
  refine ⟨fun h hc => ?_, fun h hc => ?_⟩
  · obtain ⟨-, -, hfault⟩ := conditionalJump_of_ready rfl h jumpsIfTrue
    exact exec_of_error (hfault (jumpsIfTrue_eq_true.mpr hc) hneg)
  · obtain ⟨-, -, hfault⟩ := conditionalJump_of_ready rfl h jumpsIfFalse
    exact exec_of_error (hfault (jumpsIfFalse_eq_true.mpr hc) hneg)

/-! ### Input -/

/-- An Input whose target resolves: the queue decides. -/
theorem inEffect_of_ready {m0 : Mode} {d1 d2 : Digit} {s : State} (h : Ready (.inp m0 d1 d2) s) :
    (∀ a v rest, s.target 0 m0 = some a → s.inQ = v :: rest → inEffect Config.hw m0 s = .ok (some { s with
      mem := s.mem.write a v
      memLen := grown s.memLen (s.reach (.inp m0 d1 d2))
      inQ := rest
      pc := s.pc + 2#64 })) ∧
    (s.inQ = [] → inEffect Config.hw m0 s = if s.inClosed then .error .inputExhausted else .ok none) := by
  obtain ⟨-, hpc, hb, hres⟩ := h
  rcases inEffect_ready hpc (hb (by simp [paramsOf])) with ⟨c, hc, -⟩ | ⟨a, -, ha, heffect⟩
  · exact absurd (hres.symm.trans hc) (by simp)
  · refine ⟨fun b v rest hb hq => ?_, fun hq => ?_⟩
    · obtain rfl : a = b := Option.some.inj (ha.symm.trans hb)
      rw [heffect, hq]
      rfl
    · rw [heffect, hq]

/-- Settles O34: the queue has a head. -/
theorem inputTakesHead : Obligations.InputTakesHead := fun _ _ _ _ a v rest h ha hq =>
  exec_of_ok ((inEffect_of_ready h).1 a v rest ha hq)

/-- Settles O45: the empty queue faults or holds by whether it is closed. -/
theorem inputOnEmptyQueue : Obligations.InputOnEmptyQueue := by
  intro m0 d1 d2 s h hq
  have heffect := (inEffect_of_ready h).2 hq
  by_cases hc : s.inClosed = true
  · rw [if_pos hc] at heffect ⊢
    exact exec_of_error heffect
  · rw [if_neg hc] at heffect ⊢
    exact exec_of_hold heffect

/-! ### Output, AdjustRelativeBase and Halt -/

/-- The offer to a consumer that is there, from a state whose memory the step has grown. -/
theorem offerOutput_grown_hw {item : OutItem} {s : State} (h : s.outGone = false) (n : Nat) :
    offerOutput Config.hw item { s with memLen := n } = some { s with memLen := n, outQ := s.outQ ++ [item] } :=
  offerOutput_hw (s := { s with memLen := n }) h

/-- The offer to a consumer that is gone, from a state whose memory the step has grown. -/
theorem offerOutput_grown_gone {cfg : Config} {item : OutItem} {s : State} (h : s.outGone = true) (n : Nat) :
    offerOutput cfg item { s with memLen := n } = some { s with memLen := n } :=
  offerOutput_gone (s := { s with memLen := n }) h

/-- Settles O35: the offer of the value is taken. -/
theorem outputAppendsValue : Obligations.OutputAppendsValue := by
  intro m0 d1 d2 s h hopen
  have heffect := outEffect_ready (cfg := Config.hw) rfl rfl h
  rw [offerOutput_grown_hw hopen] at heffect
  exact exec_of_ok heffect

/-- Settles O39: the sum passes the ALU. -/
theorem adjustRelativeBaseAdds : Obligations.AdjustRelativeBaseAdds := by
  intro m0 d1 d2 s h hin
  have heffect := arbEffect_ready h
  rw [alu_in hin] at heffect
  exact exec_of_ok heffect

/-- Halt under a configuration that begins its step as this hardware does: the sentinel is offered. -/
theorem hltEffect_ready {cfg : Config} {d0 d1 d2 : Digit} {s : State} (hm : cfg.memCapacity = none)
    (h : Ready (.hlt d0 d1 d2) s) :
    hltEffect cfg s = .ok ((offerOutput cfg .haltSentinel
      { s with memLen := grown s.memLen (s.reach (.hlt d0 d1 d2)) }).map (fun t => t.setStatus .halted)) := by
  have hcheck : checkAddress cfg s.pc = .ok () :=
    checkAddress_within h.pcNonneg fun n hn => by rw [hm] at hn; cases hn
  have hopen : openStep cfg 0 s = .ok { s with memLen := grown s.memLen (s.reach (.hlt d0 d1 d2)) } := by
    simp only [openStep, memRead, hcheck]
    rfl
  rw [hltEffect, hopen]
  rfl

/-- Settles O40: the offer of the sentinel is taken, or discards it. -/
theorem haltSendsSentinel : Obligations.HaltSendsSentinel := by
  intro d0 d1 d2 s h
  have heffect := hltEffect_ready (cfg := Config.hw) rfl h
  by_cases hg : s.outGone = true
  · rw [offerOutput_grown_gone hg] at heffect
    rw [if_pos hg]
    exact exec_of_ok heffect
  · rw [offerOutput_grown_hw (Bool.eq_false_of_not_eq_true hg)] at heffect
    rw [if_neg hg]
    exact exec_of_ok heffect

end Sys2Proof.Machine
end

section
/-! O26, O41, O42 and O46 to O49: where an instruction faults or holds on this hardware, and what it leaves unchanged on
whatever outcome (R71, R119, R221, R306). An outcome is a fault entered, a hold or an effect; only Input holds. -/

namespace Sys2Proof.Machine

/-! ### Faults before the operation -/

theorem bind_of_error {ε α β : Type} {x : Except ε α} {c : ε} (h : x = .error c) (f : α → Except ε β) :
    (x >>= f) = .error c := by
  rw [h]
  rfl

/-- A fault at the beginning of a step is the fault of the instruction: every effect is bound to that beginning. -/
theorem instrEffect_of_openStep_error {cfg : Config} {i : Instr} {s : State} {c : FaultCode}
    (h : openStep cfg (paramsOf i).length s = .error c) : instrEffect cfg i s = .error c := by
  cases i <;> exact bind_of_error h _

/-- Settles O42: the bound is checked when the step begins. -/
theorem addressBoundFaults : Obligations.AddressBoundFaults := by
  intro i s hpc hparams hbound
  have hlen : 1 ≤ (paramsOf i).length := List.length_pos_iff.mpr hparams
  exact exec_of_error (instrEffect_of_openStep_error (openStep_bound hpc hlen hbound))

theorem threeOperand_firstFault {m0 m1 m2 : Mode} {s : State} {c : FaultCode} (hpc : 0 ≤ s.pc.toInt)
    (hb : s.pc.toInt + 1 + 3 ≤ int64Max) (hc : s.firstFault 0 [(.read, m0), (.read, m1), (.write, m2)] = some c)
    (result : Word → Word → Except FaultCode Word) : threeOperand Config.hw result m0 m1 m2 s = .error c := by
  rcases threeOperand_ready result hpc hb with ⟨d, hd, h⟩ | ⟨a, hno, -⟩
  · rw [h, Option.some.inj (hd.symm.trans hc)]
  · rw [hno] at hc
    cases hc

theorem conditionalJump_firstFault {m0 m1 : Mode} {s : State} {c : FaultCode} (hpc : 0 ≤ s.pc.toInt)
    (hb : s.pc.toInt + 1 + 2 ≤ int64Max) (hc : s.firstFault 0 [(.read, m0), (.read, m1)] = some c)
    (taken : Word → Bool) : conditionalJump Config.hw taken m0 m1 s = .error c := by
  rcases conditionalJump_ready taken hpc hb with ⟨d, hd, h⟩ | ⟨hno, -⟩
  · rw [h, Option.some.inj (hd.symm.trans hc)]
  · rw [hno] at hc
    cases hc

theorem inEffect_firstFault {m0 : Mode} {s : State} {c : FaultCode} (hpc : 0 ≤ s.pc.toInt)
    (hb : s.pc.toInt + 1 + 1 ≤ int64Max) (hc : s.firstFault 0 [(.write, m0)] = some c) :
    inEffect Config.hw m0 s = .error c := by
  rcases inEffect_ready hpc hb with ⟨d, hd, h⟩ | ⟨a, hno, -⟩
  · rw [h, Option.some.inj (hd.symm.trans hc)]
  · rw [hno] at hc
    cases hc

/-- The fault of the one read parameter of Output and of AdjustRelativeBase. -/
theorem oneRead_firstFault {m0 : Mode} {s : State} {c : FaultCode} (hpc : 0 ≤ s.pc.toInt)
    (hb : s.pc.toInt + 1 + 1 ≤ int64Max) (hc : s.firstFault 0 [(.read, m0)] = some c) :
    outEffect Config.hw m0 s = .error c ∧ arbEffect Config.hw m0 s = .error c := by
  obtain ⟨hopen, hread⟩ := oneRead_ready hpc hb (m0 := m0)
  rw [hc] at hread
  constructor
  · rw [outEffect, hopen]
    simp only [bind, Except.bind, hread]
  · rw [arbEffect, hopen]
    simp only [bind, Except.bind, hread]

/-- Settles O41, shape by shape; Halt has no parameter that could fault. -/
theorem firstParameterFaultIsTaken : Obligations.FirstParameterFaultIsTaken := by
  intro i s c hpc hb hc
  apply exec_of_error
  cases i with
  | add m0 m1 m2 | mul m0 m1 m2 | lt m0 m1 m2 | eq m0 m1 m2 => exact threeOperand_firstFault hpc hb hc _
  | jt m0 m1 d2 | jf m0 m1 d2 => exact conditionalJump_firstFault hpc hb hc _
  | inp m0 d1 d2 => exact inEffect_firstFault hpc hb hc
  | out m0 d1 d2 => exact (oneRead_firstFault hpc hb hc).1
  | arb m0 d1 d2 => exact (oneRead_firstFault hpc hb hc).2
  | hlt d0 d1 d2 => cases hc

/-! ### Effects in closed form -/

/-- If a three-operand instruction answers, its parameters resolved and one result went to the target. -/
theorem threeOperand_hw_ok {result : Word → Word → Except FaultCode Word} {m0 m1 m2 : Mode} {s : State} {o : Option State}
    (h : threeOperand Config.hw result m0 m1 m2 s = .ok o) :
    ∃ a r n, s.target 2 m2 = some a ∧ o = some { s with mem := s.mem.write a r, memLen := n, pc := s.pc + 4#64 } := by
  obtain ⟨-, -, -, -, -, -, -, -, hb, hpc, -⟩ := threeOperand_ok h
  rcases threeOperand_ready result hpc hb with ⟨c, -, he⟩ | ⟨a, -, ha, he⟩
  · rw [h] at he
    cases he
  · cases hr : result (s.operand 0 m0) (s.operand 1 m1) <;> rw [h, hr] at he <;> cases he
    exact ⟨a, _, _, ha, rfl⟩

/-- If a conditional jump answers, its condition decided between the target's value and the next instruction. -/
theorem conditionalJump_hw_ok {taken : Word → Bool} {m0 m1 : Mode} {s : State} {o : Option State}
    (h : conditionalJump Config.hw taken m0 m1 s = .ok o) :
    ∃ n, o = some { s with
      memLen := n, pc := if taken (s.operand 0 m0) = true then s.operand 1 m1 else s.pc + 3#64 } := by
  obtain ⟨-, -, -, -, hb, hpc, -⟩ := conditionalJump_ok h
  rcases conditionalJump_ready taken hpc hb with ⟨c, -, he⟩ | ⟨-, he⟩
  · rw [h] at he
    cases he
  rw [h] at he
  split at he
  next ht =>
    split at he <;> cases he
    exact ⟨_, by rw [if_pos ht]⟩
  next ht =>
    cases he
    exact ⟨_, by rw [if_neg ht]⟩

/-- If Input answers, its target resolved, and it took the head of the queue there or holds on an empty open queue. -/
theorem inEffect_hw_ok {m0 : Mode} {s : State} {o : Option State} (h : inEffect Config.hw m0 s = .ok o) :
    0 ≤ s.pc.toInt ∧ s.pc.toInt + 1 + 1 ≤ int64Max ∧ s.firstFault 0 [(.write, m0)] = none ∧
      ∃ a, s.target 0 m0 = some a ∧
        ((∃ v rest n, s.inQ = v :: rest ∧
            o = some { s with mem := s.mem.write a v, memLen := n, inQ := rest, pc := s.pc + 2#64 }) ∨
          (s.inQ = [] ∧ s.inClosed = false ∧ o = none)) := by
  obtain ⟨-, -, -, hb, hpc, -⟩ := inEffect_ok h
  rcases inEffect_ready (m0 := m0) hpc hb with ⟨c, -, he⟩ | ⟨a, hres, ha, he⟩
  · rw [h] at he
    cases he
  refine ⟨hpc, hb, hres, a, ha, ?_⟩
  rw [h] at he
  split at he
  next v rest hq =>
    cases he
    exact .inl ⟨v, rest, _, hq, rfl⟩
  next hq =>
    split at he <;> cases he
    next hc => exact .inr ⟨hq, Bool.eq_false_of_not_eq_true hc, rfl⟩

/-- What an offer, taken or discarded, leaves is the state with some output queue. -/
theorem eq_of_offerOutput_map {cfg : Config} {item : OutItem} {u t : State} {f : State → State}
    (h : some t = (offerOutput cfg item u).map f) : ∃ q, t = f (u.setOutQ q) := by
  obtain ⟨x, hx, rfl⟩ := Option.map_eq_some_iff.mp h.symm
  rcases offerOutput_some hx with ⟨-, rfl⟩ | ⟨-, rfl⟩
  · exact ⟨x.outQ, rfl⟩
  · exact ⟨_, rfl⟩

/-! ### Holds -/

theorem offerOutput_hw_ne_none (item : OutItem) (s : State) : offerOutput Config.hw item s ≠ none := by
  cases hg : s.outGone
  · rw [offerOutput_hw hg]
    exact Option.some_ne_none _
  · rw [offerOutput_gone hg]
    exact Option.some_ne_none _

/-- On this hardware only Input holds. -/
theorem eq_inp_of_hold {i : Instr} {s : State} (h : instrEffect Config.hw i s = .ok none) :
    ∃ m0 d1 d2, i = .inp m0 d1 d2 := by
  cases i with
  | add m0 m1 m2 | mul m0 m1 m2 | lt m0 m1 m2 | eq m0 m1 m2 =>
    obtain ⟨_, _, _, -, ho⟩ := threeOperand_hw_ok h
    cases ho
  | jt m0 m1 d2 | jf m0 m1 d2 =>
    obtain ⟨_, ho⟩ := conditionalJump_hw_ok h
    cases ho
  | inp m0 d1 d2 => exact ⟨m0, d1, d2, rfl⟩
  | out m0 d1 d2 =>
    obtain ⟨v, u, -, -, -, ho⟩ := outEffect_ok h
    exact absurd (Option.map_eq_none_iff.mp ho.symm) (offerOutput_hw_ne_none _ u)
  | arb m0 d1 d2 =>
    obtain ⟨_, _, _, -, -, -, -, ho⟩ := arbEffect_ok h
    cases ho
  | hlt d0 d1 d2 =>
    obtain ⟨u, -, -, ho⟩ := hltEffect_ok h
    exact absurd (Option.map_eq_none_iff.mp ho.symm) (offerOutput_hw_ne_none _ u)

theorem heldIn_iff {cfg : Config} {s : State} :
    heldIn cfg s = true ↔ s.status = .running ∧ stepEffect cfg s = .ok none := by
  unfold heldIn
  rw [Bool.and_eq_true, decide_eq_true_iff]
  refine and_congr_right fun _ => ?_
  split
  next h => simp [h]
  next t h => simp [h]
  next c h => simp [h]

/-- Settles O46: a hold is one of Input's, with the target resolved and nothing to take. -/
theorem heldIsTheInputWait : Obligations.HeldIsTheInputWait := by
  intro s
  rw [held, heldIn_iff]
  constructor
  · rintro ⟨hr, h⟩
    obtain ⟨i, w, hpc, rfl, hi, he⟩ := stepEffect_ok h
    obtain ⟨m0, d1, d2, rfl⟩ := eq_inp_of_hold he
    obtain ⟨-, hb, hres, a, -, ⟨_, _, _, -, ho⟩ | ⟨hq, hc, -⟩⟩ := inEffect_hw_ok he
    · cases ho
    · exact ⟨hq, hc, m0, d1, d2, hi, hr, hpc, fun _ => hb, hres⟩
  · rintro ⟨hq, hc, m0, d1, d2, hi, h⟩
    have he := (inEffect_of_ready h).2 hq
    rw [hc, if_neg Bool.false_ne_true] at he
    rw [stepEffect, fetchDecode_hw h.pcNonneg, hi]
    exact ⟨h.running, he⟩

/-- What an instruction becomes: a fault entered, a hold of Input, or its effect. -/
theorem exec_cases {i : Instr} {s t : State} (h : exec i s = .next t) :
    (∃ c, t = { s with status := .faulted c s.pc }) ∨ (t = s ∧ ∃ m0 d1 d2, i = .inp m0 d1 d2) ∨
      instrEffect Config.hw i s = .ok (some t) := by
  rw [exec_eq] at h
  rcases settle_cases h with ⟨c, -, rfl⟩ | ⟨he, rfl⟩ | he
  · exact .inl ⟨c, rfl⟩
  · exact .inr (.inl ⟨rfl, eq_inp_of_hold he⟩)
  · exact .inr (.inr he)

/-! ### The instruction pointer -/

/-- Settles O26, by the three outcomes and, for an effect, by the instruction. -/
theorem pcRule : Obligations.PcRule := by
  intro i s t h
  rcases exec_cases h with hfault | ⟨rfl, m0, d1, d2, rfl⟩ | he
  · exact .inl hfault
  · exact .inr (.inl rfl)
  refine .inr ?_
  cases i with
  | add m0 m1 m2 | mul m0 m1 m2 | lt m0 m1 m2 | eq m0 m1 m2 =>
    obtain ⟨a, r, n, -, ho⟩ := threeOperand_hw_ok he
    cases ho
    rfl
  | inp m0 d1 d2 =>
    obtain ⟨-, -, -, a, -, ⟨v, rest, n, -, ho⟩ | ⟨-, -, ho⟩⟩ := inEffect_hw_ok he <;> cases ho
    exact .inr rfl
  | out m0 d1 d2 =>
    obtain ⟨v, u, g, -, -, ho⟩ := outEffect_ok he
    obtain ⟨q, rfl⟩ := eq_of_offerOutput_map ho
    exact congrArg (· + 2#64) g.pc
  | jt m0 m1 d2 =>
    obtain ⟨n, ho⟩ := conditionalJump_hw_ok he
    cases ho
    simp only [jumpsIfTrue_eq_true]
  | jf m0 m1 d2 =>
    obtain ⟨n, ho⟩ := conditionalJump_hw_ok he
    cases ho
    simp only [jumpsIfFalse_eq_true]
  | arb m0 d1 d2 =>
    obtain ⟨v, r, u, g, -, -, -, ho⟩ := arbEffect_ok he
    cases ho
    exact congrArg (· + 2#64) g.pc
  | hlt d0 d1 d2 =>
    obtain ⟨u, g, -, ho⟩ := hltEffect_ok he
    obtain ⟨q, rfl⟩ := eq_of_offerOutput_map ho
    exact g.pc

/-! ### Frames -/

/-- The four instructions of format F3RRW differ in their result alone (R103). -/
theorem instrEffect_threeOperand {m0 m1 m2 : Mode} {i : Instr}
    (hi : i ∈ [Instr.add m0 m1 m2, .mul m0 m1 m2, .lt m0 m1 m2, .eq m0 m1 m2]) (cfg : Config) (s : State) :
    ∃ result, instrEffect cfg i s = threeOperand cfg result m0 m1 m2 s := by
  simp only [List.mem_cons, List.not_mem_nil, or_false] at hi
  rcases hi with rfl | rfl | rfl | rfl <;> exact ⟨_, rfl⟩

/-- Settles O47, by the three outcomes; an effect writes the one word at its target. -/
theorem threeOperandFrame : Obligations.ThreeOperandFrame := by
  intro m0 m1 m2 i s t hi h
  rcases exec_cases h with ⟨c, rfl⟩ | ⟨rfl, -⟩ | he
  · exact ⟨rfl, rfl, rfl, rfl, rfl, .inr ⟨c, rfl⟩, fun _ _ _ _ => rfl, fun _ _ => rfl⟩
  · exact ⟨rfl, rfl, rfl, rfl, rfl, .inl rfl, fun _ _ _ _ => rfl, fun _ _ => rfl⟩
  obtain ⟨result, hresult⟩ := instrEffect_threeOperand hi Config.hw s
  obtain ⟨a, r, n, ha, ho⟩ := threeOperand_hw_ok (hresult.symm.trans he)
  cases ho
  refine ⟨rfl, rfl, rfl, rfl, rfl, .inl rfl, fun b hb x hx => ?_, fun hno => absurd (ha.symm.trans hno) (by simp)⟩
  obtain rfl : a = b := Option.some.inj (ha.symm.trans hb)
  exact Memory.read_write_other _ _ hx

/-- Settles O48, by the three outcomes; an effect writes the head of the queue at its target. -/
theorem inputFrame : Obligations.InputFrame := by
  intro m0 d1 d2 s t h
  rcases exec_cases h with ⟨c, rfl⟩ | ⟨rfl, -⟩ | he
  · exact ⟨rfl, rfl, rfl, rfl, .inl rfl, .inr ⟨c, rfl⟩, fun _ _ _ _ => rfl, fun _ _ => rfl⟩
  · exact ⟨rfl, rfl, rfl, rfl, .inl rfl, .inl rfl, fun _ _ _ _ => rfl, fun _ _ => rfl⟩
  obtain ⟨-, -, -, a, ha, ⟨v, rest, n, hq, ho⟩ | ⟨-, -, ho⟩⟩ := inEffect_hw_ok he <;> cases ho
  refine ⟨rfl, rfl, rfl, rfl, .inr ⟨v, hq⟩, .inl rfl, fun b hb x hx => ?_, fun hno => absurd (ha.symm.trans hno) (by simp)⟩
  obtain rfl : a = b := Option.some.inj (ha.symm.trans hb)
  exact Memory.read_write_other _ _ hx

/-- The effect of an instruction without a write parameter, Input apart, writes no word and takes no input; the output is
Output's and Halt's. -/
theorem instrEffect_nonStoring {cfg : Config} {m0 m1 : Mode} {d0 d1 d2 : Digit} {i : Instr} {s t : State}
    (hi : i ∈ [Instr.out m0 d1 d2, .jt m0 m1 d2, .jf m0 m1 d2, .arb m0 d1 d2, .hlt d0 d1 d2])
    (h : instrEffect cfg i s = .ok (some t)) :
    t.mem = s.mem ∧ t.inQ = s.inQ ∧ (i ≠ .out m0 d1 d2 → i ≠ .hlt d0 d1 d2 → t.outQ = s.outQ) := by
  have hjump {taken : Word → Bool} (h : conditionalJump cfg taken m0 m1 s = .ok (some t)) :
      t.mem = s.mem ∧ t.inQ = s.inQ ∧ t.outQ = s.outQ := by
    obtain ⟨-, p, u, g, -, -, ⟨-, -, ho⟩ | ⟨-, ho⟩⟩ := conditionalJump_ok h <;> cases ho <;>
      exact ⟨g.mem, g.inQ, g.outQ⟩
  simp only [List.mem_cons, List.not_mem_nil, or_false] at hi
  rcases hi with rfl | rfl | rfl | rfl | rfl
  · obtain ⟨v, u, g, -, -, ho⟩ := outEffect_ok h
    obtain ⟨q, rfl⟩ := eq_of_offerOutput_map ho
    exact ⟨g.mem, g.inQ, fun hne _ => absurd rfl hne⟩
  · obtain ⟨hm, hq, ho⟩ := hjump h
    exact ⟨hm, hq, fun _ _ => ho⟩
  · obtain ⟨hm, hq, ho⟩ := hjump h
    exact ⟨hm, hq, fun _ _ => ho⟩
  · obtain ⟨v, r, u, g, -, -, -, ho⟩ := arbEffect_ok h
    cases ho
    exact ⟨g.mem, g.inQ, fun _ _ => g.outQ⟩
  · obtain ⟨u, g, -, ho⟩ := hltEffect_ok h
    obtain ⟨q, rfl⟩ := eq_of_offerOutput_map ho
    exact ⟨g.mem, g.inQ, fun _ hne => absurd rfl hne⟩

/-- Settles O49, by the three outcomes; of an effect the frame says who changes `rb` and `status`. -/
theorem nonStoringFrame : Obligations.NonStoringFrame := by
  intro m0 m1 d0 d1 d2 i s t hi h
  rcases exec_cases h with ⟨c, rfl⟩ | ⟨rfl, -⟩ | he
  · exact ⟨fun _ => rfl, rfl, rfl, rfl, fun _ => rfl, fun _ _ => rfl, .inr (.inl ⟨c, rfl⟩)⟩
  · exact ⟨fun _ => rfl, rfl, rfl, rfl, fun _ => rfl, fun _ _ => rfl, .inl rfl⟩
  obtain ⟨hm, hq, hout⟩ := instrEffect_nonStoring hi he
  have f := instrEffect_frame he
  refine ⟨fun b => by rw [hm], hq, f.inClosed, f.outGone, fun hne => ?_, hout, ?_⟩
  · rcases f.rb with hrb | ⟨m, e1, e2, rfl⟩
    · exact hrb
    · exact absurd (by simpa using hi) hne
  · rcases f.status with hstatus | ⟨hhalt, e0, e1, e2, rfl⟩
    · exact .inl hstatus
    · exact .inr (.inr ⟨by simpa using hi, hhalt⟩)

end Sys2Proof.Machine
end

section
/-! O28, O57 and O58: what a step does not see (R46) and what a Send leaves alone (R305, R330, R338). Both are relations
between states that every effect keeps (`EffectCongruence`); Input's look at the queue is the one part each has to settle for
itself. -/

namespace Sys2Proof.Machine

/-! ### Input in two parts -/

/-- R220, R221: what Input does once its target is resolved. -/
def takeInput (cfg : Config) (target : Word) (s : State) : Except FaultCode (Option State) :=
  match s.inQ with
  | v :: rest => do
    let t ← memWrite cfg target v (s.setInQ rest)
    return some (t.advance 2)
  | [] => if s.inClosed then throw .inputExhausted else return none

theorem inEffect_eq (cfg : Config) (m0 : Mode) (s : State) :
    inEffect cfg m0 s = (openStep cfg 1 s).bind fun s0 => (writeOperand cfg 0 m0 s0).bind fun r => takeInput cfg r.1 r.2 :=
  rfl

theorem takeInput_cons {cfg : Config} {target v : Word} {s : State} {rest : List Word} (h : s.inQ = v :: rest) :
    takeInput cfg target s = (memWrite cfg target v (s.setInQ rest)).bind fun t => .ok (some (t.advance 2)) := by
  unfold takeInput
  split
  next w q hq =>
    obtain ⟨rfl, rfl⟩ := List.cons.inj (hq.symm.trans h)
    rfl
  next hq => rw [h] at hq; cases hq

theorem takeInput_nil {cfg : Config} {target : Word} {s : State} (h : s.inQ = []) :
    takeInput cfg target s = if s.inClosed then .error .inputExhausted else .ok none := by
  unfold takeInput
  split
  next w q hq => rw [h] at hq; cases hq
  next => rfl

/-! ### Related states step to related states -/

/-- As `SameOutcome.bind`, with what the first computation on the left answered at hand. -/
theorem SameOutcome.bind_of_ok {α β : Type} {R : α → α → Prop} {Q : β → β → Prop} {x y : Except FaultCode α}
    {f g : α → Except FaultCode β} (h : SameOutcome R x y)
    (hf : ∀ a b, x = .ok a → R a b → SameOutcome Q (f a) (g b)) : SameOutcome Q (x.bind f) (y.bind g) := by
  cases h with
  | err c => exact .err c
  | ok h => exact hf _ _ rfl h

section

variable {R : State → State → Prop} (C : EffectCongruence R)
include C

/-- Related Inputs, where what they do with the queue is related; the left one may be known to have come that far. -/
theorem inEffect_same {s t : State} {m0 : Mode} (h : R s t)
    (htake : ∀ a s1 t1, inEffect Config.hw m0 s = takeInput Config.hw a s1 → R s1 t1 →
      SameOutcome (SameOption R) (takeInput Config.hw a s1) (takeInput Config.hw a t1)) :
    SameOutcome (SameOption R) (inEffect Config.hw m0 s) (inEffect Config.hw m0 t) := by
  rw [inEffect_eq, inEffect_eq]
  refine (openStep_same C 1 h).bind_of_ok fun s0 t0 hopen h0 => ?_
  refine (writeOperand_same C 0 m0 h0).bind_of_ok fun r q hwrite h1 => ?_
  obtain ⟨htarget, h1⟩ := h1
  rw [← htarget]
  refine htake r.1 r.2 q.2 ?_ h1
  rw [inEffect_eq, hopen, Except.bind, hwrite, Except.bind]

/-- Related states take the same head of their queues to related states. -/
theorem takeInput_cons_same {s t : State} {a v : Word} {q p : List Word} (hs : s.inQ = v :: q) (ht : t.inQ = v :: p)
    (h : R (s.setInQ q) (t.setInQ p)) :
    SameOutcome (SameOption R) (takeInput Config.hw a s) (takeInput Config.hw a t) := by
  rw [takeInput_cons hs, takeInput_cons ht]
  exact (memWrite_same C a v h).bind fun _ _ h => .ok (.some (advance_same C 2 h))

/-- A step from the one state is a step from the other, to a related state. -/
theorem step_same {s t s' : State} (h : R s t) (hstatus : s.status = t.status)
    (hin : s.status = .running → ∀ m0 d1 d2, fetchDecode Config.hw s = .ok (.inp m0 d1 d2) →
      SameOutcome (SameOption R) (inEffect Config.hw m0 s) (inEffect Config.hw m0 t))
    (hs : step s = .next s') : ∃ t', step t = .next t' ∧ R s' t' := by
  by_cases hr : s.status = .running
  · have heffect := stepEffect_same C h (hin hr)
    rw [step_running hr] at hs
    rw [step_running (hstatus ▸ hr)]
    generalize stepEffect Config.hw s = x at hs heffect
    generalize stepEffect Config.hw t = y at heffect
    cases heffect with
    | err c =>
      cases hs
      refine ⟨_, rfl, ?_⟩
      rw [enterFault, enterFault, C.pc h]
      exact C.setStatus _ h
    | ok hopt =>
      cases hopt with
      | none =>
        cases hs
        exact ⟨t, rfl, h⟩
      | some hst =>
        cases hs
        exact ⟨_, rfl, hst⟩
  · rw [step_ended hr] at hs
    cases hs
    exact ⟨t, step_ended (hstatus ▸ hr), h⟩

end

/-! ### What a program does not observe -/

theorem sameToProgram_congruence : EffectCongruence SameToProgram where
  mem h := h.mem
  pc h := h.pc
  rb h := h.rb
  touch _ h := ⟨h.mem, h.pc, h.rb, h.status, h.inQ, h.inClosed⟩
  setMem _ h := ⟨rfl, h.pc, h.rb, h.status, h.inQ, h.inClosed⟩
  setPc _ h := ⟨h.mem, rfl, h.rb, h.status, h.inQ, h.inClosed⟩
  setRb _ h := ⟨h.mem, h.pc, rfl, h.status, h.inQ, h.inClosed⟩
  setStatus _ h := ⟨h.mem, h.pc, h.rb, rfl, h.inQ, h.inClosed⟩
  offer {s t} x h := by
    have hoffer (u : State) : ∃ q, offerOutput Config.hw x u = some (u.setOutQ q) := by
      obtain ⟨v, hv⟩ := Option.ne_none_iff_exists'.mp (offerOutput_hw_ne_none x u)
      obtain ⟨q, rfl⟩ := eq_of_offerOutput_map (f := id) (by rw [hv]; rfl)
      exact ⟨q, hv⟩
    obtain ⟨q, hq⟩ := hoffer s
    obtain ⟨p, hp⟩ := hoffer t
    exact ⟨_, _, hq, hp, h.mem, h.pc, h.rb, h.status, h.inQ, h.inClosed⟩

theorem SameToProgram.sameInput {s t : State} (h : SameToProgram s t) (m0 : Mode) :
    SameOutcome (SameOption SameToProgram) (inEffect Config.hw m0 s) (inEffect Config.hw m0 t) := by
  refine inEffect_same sameToProgram_congruence h fun a s1 t1 _ h1 => ?_
  cases hq : s1.inQ with
  | nil =>
    rw [takeInput_nil hq, takeInput_nil (h1.inQ.symm.trans hq), h1.inClosed]
    split
    · exact .err _
    · exact .ok .none
  | cons v rest =>
    exact takeInput_cons_same sameToProgram_congruence hq (h1.inQ.symm.trans hq)
      ⟨h1.mem, h1.pc, h1.rb, h1.status, rfl, h1.inClosed⟩

/-- Settles O28, by induction on the number of steps. -/
theorem outputIsUnobservable : Obligations.OutputIsUnobservable := by
  intro k
  induction k with
  | zero => exact fun s t h => ⟨s, t, rfl, rfl, h⟩
  | succ k ih =>
    intro s t h
    obtain ⟨s1, hs⟩ := exists_step s
    obtain ⟨t1, ht, h1⟩ := step_same sameToProgram_congruence h h.status (fun _ m0 _ _ _ => h.sameInput m0) hs
    rw [core_run_succ, core_run_succ, hs, ht]
    exact ih s1 t1 h1

/-- Nor does what a program does not observe decide whether it is held. -/
theorem SameToProgram.held_eq {s t : State} (h : SameToProgram s t) : held s = held t := by
  have heffect := stepEffect_same sameToProgram_congruence h fun m0 _ _ _ => h.sameInput m0
  have hnone : stepEffect Config.hw s = .ok none ↔ stepEffect Config.hw t = .ok none := by
    generalize stepEffect Config.hw s = x at heffect
    generalize stepEffect Config.hw t = y at heffect
    cases heffect with
    | err c => simp
    | ok hopt => cases hopt <;> simp
  rw [Bool.eq_iff_iff, held, held, heldIn_iff, heldIn_iff, h.status, hnone]

/-! ### A Send -/

/-- `t` is `s` after a Send of `v`, which the open input allows. -/
def Sent (v : Word) (s t : State) : Prop := s.inClosed = false ∧ t = s.setInQ (s.inQ ++ [v])

theorem send_eq_next_iff {v : Word} {s t : State} : Driver.send v s = .next t ↔ Sent v s t := by
  unfold Driver.send Sent
  cases s.inClosed <;> simp [eq_comm]

theorem sent_congruence (v : Word) : EffectCongruence (Sent v) where
  mem := by rintro s _ ⟨-, rfl⟩; rfl
  pc := by rintro s _ ⟨-, rfl⟩; rfl
  rb := by rintro s _ ⟨-, rfl⟩; rfl
  touch := by rintro s _ a ⟨hc, rfl⟩; exact ⟨hc, rfl⟩
  setMem := by rintro s _ m ⟨hc, rfl⟩; exact ⟨hc, rfl⟩
  setPc := by rintro s _ a ⟨hc, rfl⟩; exact ⟨hc, rfl⟩
  setRb := by rintro s _ r ⟨hc, rfl⟩; exact ⟨hc, rfl⟩
  setStatus := by rintro s _ x ⟨hc, rfl⟩; exact ⟨hc, rfl⟩
  offer := by
    rintro s _ x ⟨hc, rfl⟩
    by_cases hg : s.outGone = true
    · exact ⟨_, _, offerOutput_gone hg, offerOutput_gone hg, hc, rfl⟩
    · have hopen := Bool.eq_false_of_not_eq_true hg
      exact ⟨_, _, offerOutput_hw hopen, offerOutput_hw hopen, hc, rfl⟩

/-- An Input that does not hold does the same before and after a Send: it took the head, or never came to the queue. -/
theorem Sent.sameInput {v : Word} {s t : State} {m0 : Mode} (h : Sent v s t) (hno : inEffect Config.hw m0 s ≠ .ok none) :
    SameOutcome (SameOption (Sent v)) (inEffect Config.hw m0 s) (inEffect Config.hw m0 t) := by
  refine inEffect_same (sent_congruence v) h fun a s1 t1 he h1 => ?_
  obtain ⟨hc, rfl⟩ := h1
  cases hq : s1.inQ with
  | nil =>
    rw [takeInput_nil hq, hc] at he
    exact absurd he hno
  | cons w rest => exact takeInput_cons_same (sent_congruence v) hq rfl ⟨hc, rfl⟩

/-- Settles O57: a Send is a relation that the step keeps, unless Input holds. -/
theorem sendCommutesWithStep : Obligations.SendCommutesWithStep := by
  intro v s t u hheld hs hsend
  have h : Sent v s u := send_eq_next_iff.mp hsend
  have hstatus : s.status = u.status := by rw [h.2]; rfl
  have hno (hr : s.status = .running) (m0 : Mode) (d1 d2 : Digit) (hi : fetchDecode Config.hw s = .ok (.inp m0 d1 d2)) :
      inEffect Config.hw m0 s ≠ .ok none := by
    intro he
    have hhold : held s = true := heldIn_iff.mpr ⟨hr, by rw [stepEffect, hi]; exact he⟩
    rw [hheld] at hhold
    cases hhold
  obtain ⟨w, hw, hsent⟩ :=
    step_same (sent_congruence v) h hstatus (fun hr m0 d1 d2 hi => h.sameInput (hno hr m0 d1 d2 hi)) hs
  exact ⟨w, hw, send_eq_next_iff.mpr hsent⟩

/-! ### What lifts a hold -/

theorem held_eq_false_of_inQ {s : State} (h : s.inQ ≠ []) : held s = false :=
  Bool.eq_false_iff.mpr fun hh => h ((heldIsTheInputWait s).mp hh).1

theorem held_eq_false_of_inClosed {s : State} (h : s.inClosed = true) : held s = false :=
  Bool.eq_false_iff.mpr fun hh => by
    obtain ⟨-, hopen, -⟩ := (heldIsTheInputWait s).mp hh
    rw [h] at hopen
    cases hopen

/-- Taking an item from the output is not observed by the program. -/
theorem receive_sameToProgram {s t : State} {x : OutItem} (h : Driver.receive s = .item x t) : SameToProgram s t := by
  unfold Driver.receive at h
  split at h
  · cases h
    exact ⟨rfl, rfl, rfl, rfl, rfl, rfl⟩
  · split at h <;> cases h

/-- Settles O58: a hold needs an empty open queue, and does not depend on the output. -/
theorem holdLiftedBySendOrClose : Obligations.HoldLiftedBySendOrClose := by
  intro s hs
  refine ⟨fun v t h => ?_, held_eq_false_of_inClosed rfl, ?_, fun x t h => ?_⟩
  · obtain ⟨-, rfl⟩ := send_eq_next_iff.mp h
    exact held_eq_false_of_inQ (by simp)
  · have hsame : SameToProgram s (Driver.disconnect s) := ⟨rfl, rfl, rfl, rfl, rfl, rfl⟩
    rw [← hsame.held_eq, hs]
  · rw [← (receive_sameToProgram h).held_eq, hs]

end Sys2Proof.Machine
end

section
/-! O51 and O52: two other values of the parameters of R13. Under `OVERFLOW_MODE = wrap` a computation is the same unless it
overflows on this hardware, which a bind carries along; with a bounded output the offer alone differs. -/

namespace Sys2Proof.Machine

/-! ### A step by its decoded instruction, under any configuration -/

/-- With unbounded memory a step of an instance that is ready for its decoded instruction is that instruction's effect. -/
theorem stepEffect_of_decode {cfg : Config} {i : Instr} {s : State} (hm : cfg.memCapacity = none) (h : Ready i s)
    (hi : decodeIn cfg (s.mem.read s.pc.toNat) = .ok i) : stepEffect cfg s = instrEffect cfg i s := by
  have hcheck : checkAddress cfg s.pc = .ok () :=
    checkAddress_within h.pcNonneg fun n hn => by rw [hm] at hn; cases hn
  rw [stepEffect, fetchDecode, memRead_of_check_ok hcheck]
  dsimp only
  rw [hi]

/-! ### The same up to overflow -/

/-- R13, D2: this hardware with `OVERFLOW_MODE = wrap`. -/
def Config.hwWrap : Config := { Config.hw with overflow := .wrap }

/-- `y` is `x`, unless `x` is ArithmeticOverflow. -/
def UpToOverflow {α : Type} (x y : Except FaultCode α) : Prop := x = .error .arithmeticOverflow ∨ y = x

theorem UpToOverflow.refl {α : Type} (x : Except FaultCode α) : UpToOverflow x x := .inr rfl

theorem UpToOverflow.ok {α : Type} {x y : Except FaultCode α} {a : α} (h : UpToOverflow x y) (hx : x = .ok a) :
    y = .ok a := by
  rcases h with h | h
  · rw [hx] at h
    cases h
  · rw [h, hx]

theorem UpToOverflow.bind {α β : Type} {x y : Except FaultCode α} {f g : α → Except FaultCode β}
    (h : UpToOverflow x y) (hf : ∀ a, UpToOverflow (f a) (g a)) : UpToOverflow (x >>= f) (y >>= g) := by
  rcases h with rfl | rfl
  · exact .inl rfl
  · cases y with
    | error c => exact .inr rfl
    | ok a => exact hf a

theorem alu_upToOverflow (x : Int) : UpToOverflow (alu Config.hw x) (alu Config.hwWrap x) := by
  by_cases h : InInt64 x
  · exact .inr (by rw [alu_in h, alu_in h])
  · exact .inl (alu_hw_out h)

/-! ### Operands and shapes -/

theorem readOperand_upToOverflow (k : Nat) (m : Mode) (s : State) :
    UpToOverflow (readOperand Config.hw k m s) (readOperand Config.hwWrap k m s) := by
  have hparam : paramWord Config.hwWrap k s = paramWord Config.hw k s := rfl
  rw [readOperand, readOperand, hparam]
  cases paramWord Config.hw k s with
  | error c => exact .refl _
  | ok r =>
    cases m with
    | position | immediate => exact .refl _
    | relative =>
      simp only [operandValue, relativeAddress]
      rcases alu_upToOverflow (r.2.rb.toInt + r.1.toInt) with h | h
      · exact .inl (by rw [h])
      · rw [h]
        exact .refl _

theorem writeOperand_upToOverflow (k : Nat) (m : Mode) (s : State) :
    UpToOverflow (writeOperand Config.hw k m s) (writeOperand Config.hwWrap k m s) := by
  have hparam : paramWord Config.hwWrap k s = paramWord Config.hw k s := rfl
  rw [writeOperand, writeOperand, hparam]
  cases paramWord Config.hw k s with
  | error c => exact .refl _
  | ok r =>
    cases m with
    | position | immediate => exact .refl _
    | relative =>
      simp only [operandTarget, relativeAddress]
      rcases alu_upToOverflow (r.2.rb.toInt + r.1.toInt) with h | h
      · exact .inl (by rw [h])
      · rw [h]
        exact .refl _

theorem threeOperand_upToOverflow {result result' : Word → Word → Except FaultCode Word}
    (hresult : ∀ a b, UpToOverflow (result a b) (result' a b)) (m0 m1 m2 : Mode) (s : State) :
    UpToOverflow (threeOperand Config.hw result m0 m1 m2 s) (threeOperand Config.hwWrap result' m0 m1 m2 s) :=
  (UpToOverflow.refl (openStep Config.hw 3 s)).bind fun s0 => (readOperand_upToOverflow 0 m0 s0).bind fun r0 =>
    (readOperand_upToOverflow 1 m1 r0.2).bind fun r1 => (writeOperand_upToOverflow 2 m2 r1.2).bind fun _ =>
      (hresult r0.1 r1.1).bind fun _ => .refl _

theorem conditionalJump_upToOverflow (taken : Word → Bool) (m0 m1 : Mode) (s : State) :
    UpToOverflow (conditionalJump Config.hw taken m0 m1 s) (conditionalJump Config.hwWrap taken m0 m1 s) :=
  (UpToOverflow.refl (openStep Config.hw 2 s)).bind fun s0 => (readOperand_upToOverflow 0 m0 s0).bind fun r0 =>
    (readOperand_upToOverflow 1 m1 r0.2).bind fun _ => .refl _

theorem instrEffect_upToOverflow (i : Instr) (s : State) :
    UpToOverflow (instrEffect Config.hw i s) (instrEffect Config.hwWrap i s) := by
  cases i with
  | add m0 m1 m2 =>
    exact threeOperand_upToOverflow (result := addResult Config.hw) (result' := addResult Config.hwWrap)
      (fun _ _ => alu_upToOverflow _) m0 m1 m2 s
  | mul m0 m1 m2 =>
    exact threeOperand_upToOverflow (result := mulResult Config.hw) (result' := mulResult Config.hwWrap)
      (fun _ _ => alu_upToOverflow _) m0 m1 m2 s
  | lt m0 m1 m2 | eq m0 m1 m2 => exact threeOperand_upToOverflow (fun _ _ => .refl _) m0 m1 m2 s
  | jt m0 m1 d2 | jf m0 m1 d2 => exact conditionalJump_upToOverflow _ m0 m1 s
  | inp m0 d1 d2 =>
    exact (UpToOverflow.refl (openStep Config.hw 1 s)).bind fun s0 => (writeOperand_upToOverflow 0 m0 s0).bind fun _ => .refl _
  | out m0 d1 d2 =>
    exact (UpToOverflow.refl (openStep Config.hw 1 s)).bind fun s0 => (readOperand_upToOverflow 0 m0 s0).bind fun _ => .refl _
  | arb m0 d1 d2 =>
    exact (UpToOverflow.refl (openStep Config.hw 1 s)).bind fun s0 => (readOperand_upToOverflow 0 m0 s0).bind fun _ =>
      (alu_upToOverflow _).bind fun _ => .refl _
  | hlt d0 d1 d2 => exact .refl _

theorem stepEffect_upToOverflow (s : State) : UpToOverflow (stepEffect Config.hw s) (stepEffect Config.hwWrap s) := by
  have hfetch : fetchDecode Config.hwWrap s = fetchDecode Config.hw s := rfl
  rw [stepEffect, stepEffect, hfetch]
  cases fetchDecode Config.hw s with
  | error c => exact .refl _
  | ok i => exact instrEffect_upToOverflow i s

/-! ### The wrapped results -/

/-- R17: a word holds an integer outside int64 wrapped. -/
theorem toInt_wordOfInt_eq_wrap64 (x : Int) : (wordOfInt x).toInt = wrap64 x := by
  rw [← wordOfInt_wrap64]
  refine toInt_wordOfInt ?_
  simp only [InInt64, int64Min, int64Max, wrap64]
  omega

/-- Under wrap a three-operand instruction whose result does not fault completes with it. -/
theorem threeOperand_wrap_of_ready {i : Instr} {m0 m1 m2 : Mode} {s : State} {a : Nat} {r : Word}
    {result : Word → Word → Except FaultCode Word} (hp : paramsOf i = [(.read, m0), (.read, m1), (.write, m2)])
    (h : Ready i s) (ha : s.target 2 m2 = some a) (hr : result (s.operand 0 m0) (s.operand 1 m1) = .ok r) :
    threeOperand Config.hwWrap result m0 m1 m2 s = .ok (some { s with
      mem := s.mem.write a r
      memLen := grown s.memLen (s.reach i)
      pc := s.pc + 4#64 }) :=
  (threeOperand_upToOverflow (fun _ _ => .refl _) m0 m1 m2 s).ok ((threeOperand_of_ready hp h result).2 a r ha hr)

theorem arbEffect_wrap_of_ready {m0 : Mode} {d1 d2 : Digit} {s : State} (h : Ready (.arb m0 d1 d2) s) :
    arbEffect Config.hwWrap m0 s = .ok (some { s with
      memLen := grown s.memLen (s.reach (.arb m0 d1 d2))
      rb := wordOfInt (s.rb.toInt + (s.operand 0 m0).toInt)
      pc := s.pc + 2#64 }) := by
  obtain ⟨hopen, hread⟩ := oneRead_of_ready rfl h
  have hopen' : openStep Config.hwWrap 1 s = openStep Config.hw 1 s := rfl
  have hread' := (readOperand_upToOverflow 0 m0 _).ok hread
  rw [arbEffect, hopen', hopen]
  simp only [bind, Except.bind, hread', alu_wrap (cfg := Config.hwWrap) rfl]
  rfl

/-- A step under wrap of a ready instance, by the effect of its decoded instruction. -/
theorem stepIn_wrap_of_effect {i : Instr} {s t : State} (h : Ready i s)
    (hi : decode (s.mem.read s.pc.toNat) = .ok i) (he : instrEffect Config.hwWrap i s = .ok (some t)) :
    stepIn Config.hwWrap s = .next t := by
  rw [stepIn_running h.running, stepEffect_of_decode (cfg := Config.hwWrap) rfl h hi, he]
  rfl

/-- Settles O51: a step that does not overflow is the same under wrap, and the wrapping ALU always answers. -/
theorem wrapAgreesWithoutOverflow : Obligations.WrapAgreesWithoutOverflow := by
  refine ⟨fun s t h hno => ?_, fun m0 m1 m2 s a h ha hi => ?_, fun m0 m1 m2 s a h ha hi => ?_, fun m0 d1 d2 s h hi => ?_⟩
  · by_cases hr : s.status = .running
    · rw [step_running hr] at h
      rw [stepIn_running hr]
      rcases stepEffect_upToOverflow s with he | he
      · rw [he] at h
        cases h
        exact absurd rfl (hno s.pc)
      · exact (congrArg (settle s) he).trans h
    · rw [stepIn_ended hr, ← step_ended hr, h]
  · exact ⟨_, toInt_wordOfInt_eq_wrap64 _,
      stepIn_wrap_of_effect h hi (threeOperand_wrap_of_ready rfl h ha (alu_wrap rfl _))⟩
  · exact ⟨_, toInt_wordOfInt_eq_wrap64 _,
      stepIn_wrap_of_effect h hi (threeOperand_wrap_of_ready rfl h ha (alu_wrap rfl _))⟩
  · exact ⟨_, toInt_wordOfInt_eq_wrap64 _, stepIn_wrap_of_effect h hi (arbEffect_wrap_of_ready h)⟩

/-! ### A bounded output -/

/-- R231: a full buffer whose consumer is there holds the offer, from a state whose memory the step has grown. -/
theorem offerOutput_grown_full {cfg : Config} {item : OutItem} {s : State} (hopen : s.outGone = false)
    (hfull : cfg.outCapacity = some s.outQ.length) (n : Nat) : offerOutput cfg item { s with memLen := n } = none := by
  simp [offerOutput, hopen, hfull]

/-- Settles O52: the offer holds, and with it the step. -/
theorem fullBoundedOutputHolds : Obligations.FullBoundedOutputHolds := by
  rintro _ i s hopen rfl hi h hdecode
  have heffect : stepEffect { Config.hw with outCapacity := some s.outQ.length } s = .ok none := by
    rw [stepEffect_of_decode (cfg := { Config.hw with outCapacity := some s.outQ.length }) rfl h hdecode]
    rcases hi with ⟨m0, d1, d2, rfl⟩ | ⟨d0, d1, d2, rfl⟩
    · refine (outEffect_ready rfl rfl h).trans ?_
      rw [offerOutput_grown_full hopen rfl, Option.map_none]
    · refine (hltEffect_ready rfl h).trans ?_
      rw [offerOutput_grown_full hopen rfl, Option.map_none]
  refine ⟨?_, heldIn_iff.mpr ⟨h.running, heffect⟩⟩
  rw [stepIn_running h.running, heffect]
  rfl

end Sys2Proof.Machine
end

section
/-! O55, O56 and O60: the driver's side of the endpoints and the relays (R331 to R334, R342, R343). No operation of the driver
touches an inner component (`SamePrivate`), and each leaves the output with an end of what was queued. -/

namespace Sys2Proof.Machine

/-! ### The driver -/

theorem receive_of_cons {s : State} {x : OutItem} {rest : List OutItem} (h : s.outQ = x :: rest) :
    Driver.receive s = .item x { s with outQ := rest } := by
  simp only [Driver.receive, h]
  rfl

theorem Status.ended_iff {x : Status} : x.ended = true ↔ x ≠ .running := by cases x <;> simp [Status.ended]

theorem receive_of_ended {s : State} (h : s.outQ = []) (hr : s.status ≠ .running) :
    Driver.receive s = .disconnected := by
  simp only [Driver.receive, h, if_pos (Status.ended_iff.mpr hr)]

theorem receive_of_running {s : State} (h : s.outQ = []) (hr : s.status = .running) : Driver.receive s = .waits := by
  simp only [Driver.receive, h, hr, Status.ended, if_neg Bool.false_ne_true]

theorem send_of_closed {s : State} (h : s.inClosed = true) (v : Word) :
    Driver.send v s = .fault .sendAfterClose := if_pos h

/-- Settles O55. -/
theorem driverOperations : Obligations.DriverOperations := fun _ =>
  ⟨fun _ h => send_eq_next_iff.mpr ⟨h, rfl⟩, fun v h => send_of_closed h v, rfl, rfl, fun _ _ h => receive_of_cons h,
    receive_of_ended, receive_of_running⟩

/-- What keeps the inner components and leaves an end of the output, none of it for a consumer that is gone, keeps the
invariant. -/
theorem State.Inv.of_samePrivate {s t : State} (hs : s.Inv) (h : SamePrivate s t) (hq : t.outQ <:+ s.outQ)
    (hgone : t.outGone = true → t.outQ = []) : t.Inv := by
  obtain ⟨hmem, hlen, hpc, -, hstatus⟩ := h
  constructor
  case memWf => rw [hmem]; exact hs.memWf
  case memBelow => rw [hmem, hlen]; exact hs.memBelow
  case lenBound => rw [hlen]; exact hs.lenBound
  case pcNonneg => rw [hpc]; exact hs.pcNonneg
  case goneEmpty => exact hgone
  case sentinelLast =>
    obtain ⟨l, hl⟩ := hq
    intro hmem
    have hne : t.outQ ≠ [] := List.ne_nil_of_mem (List.mem_of_mem_dropLast hmem)
    refine hs.sentinelLast ?_
    rw [← hl, List.dropLast_append_of_ne_nil hne]
    exact List.mem_append_right l hmem
  case sentinelHalted =>
    intro hmem
    rw [hstatus]
    exact hs.sentinelHalted (hq.mem hmem)
  case faultRecord => rw [hstatus, hpc]; exact hs.faultRecord

/-- Settles O56: no operation touches an inner component or adds to the output. -/
theorem driverKeepsInvariant : Obligations.DriverKeepsInvariant := by
  intro s hs
  refine ⟨fun v t h => ?_, ?_, ?_, fun x t h => ?_⟩
  · have hprivate := Driver.send_samePrivate h
    obtain ⟨-, rfl⟩ := send_eq_next_iff.mp h
    exact hs.of_samePrivate hprivate (List.suffix_refl _) hs.goneEmpty
  · exact hs.of_samePrivate (Driver.close_samePrivate s) (List.suffix_refl _) hs.goneEmpty
  · exact hs.of_samePrivate (Driver.disconnect_samePrivate s) (List.nil_suffix) fun _ => rfl
  · have hprivate := Driver.receive_samePrivate h
    cases hq : s.outQ with
    | nil =>
      unfold Driver.receive at h
      rw [hq] at h
      dsimp only at h
      split at h <;> cases h
    | cons y rest =>
      rw [receive_of_cons hq] at h
      cases h
      refine hs.of_samePrivate hprivate (by rw [hq]; exact List.suffix_cons _ rest) fun hg => ?_
      have hempty := hs.goneEmpty hg
      rw [hq] at hempty
      cases hempty

/-! ### The relays -/

theorem sendTo_of_open {n : Network} {i : Nat} {d : State} (hd : n.instances[i]? = some d) (h : d.inClosed = false)
    (v : Word) : n.sendTo i v = some (n.setInstance i { d with inQ := d.inQ ++ [v] }) := by
  have hsend : Driver.send v d = .next { d with inQ := d.inQ ++ [v] } := send_eq_next_iff.mpr ⟨h, rfl⟩
  simp only [Network.sendTo, hd, hsend]

theorem sendTo_of_closed {n : Network} {i : Nat} {d : State} (hd : n.instances[i]? = some d) (h : d.inClosed = true)
    (v : Word) : n.sendTo i v = none := by
  simp only [Network.sendTo, hd, send_of_closed h v]

/-- Settles O60: each phase of the relay, by what the driver's operation answers. -/
theorem relayOperations : Obligations.RelayOperations := by
  intro n r x s d hx hs hd
  refine ⟨fun hready => ⟨fun v rest hq => ?_, fun rest hq => ?_, fun hq hr => ?_, fun hq hr => ?_⟩, fun v hv hc => ?_,
    fun v hv hc => ?_, fun hclosing => ?_, fun hstopped => ?_⟩
  · simp only [Network.relayMove, hx, hready, hs, receive_of_cons hq]
    rfl
  · simp only [Network.relayMove, hx, hready, hs, receive_of_cons hq]
    rfl
  · simp only [Network.relayMove, hx, hready, hs, receive_of_ended hq hr]
  · simp only [Network.relayMove, hx, hready, hs, receive_of_running hq hr]
  · simp only [Network.relayMove, hx, hv, sendTo_of_open hd hc v, Option.map_some]
  · simp only [Network.relayMove, hx, hv, sendTo_of_closed hd hc v, Option.map_none]
  · simp only [Network.relayMove, hx, hclosing, hd]
    rfl
  · simp only [Network.relayMove, hx, hstopped]

end Sys2Proof.Machine
end
